-- ==== Sys2Proof/Word.lean ====
section
/-!
DEFINITION. The word types of the core and the bit slice of the spec's notation
(spec/00_scope.md R6, R7). All values are unsigned.
-/
namespace Sys2Proof

/-- A general register, a timer, a byte of memory: 8 bits (R6 `XLEN`). -/
abbrev Byte := BitVec 8

/-- `PC`, `I`, a stack slot, an instruction word: 16 bits (R6 `PC_WIDTH`, `I_WIDTH`, `ILEN`). -/
abbrev Word := BitVec 16

/-- The number of a general register, 0 to 15 (R6 `NREG`, R20). -/
abbrev Reg := Fin 16

/-- The number of a key, 0 to 15 (R6 `NKEYS`, R28). -/
abbrev Key := Fin 16

/-- `VF`, the register that is also the flag (R20, R21). -/
abbrev VF : Reg := 15

end Sys2Proof
end

