-- ==== Sys2Proof/WellFormed.lean ====
section
/-!
DEFINITION. Which instructions have an encoding: every operand within its field (spec/30_encoding.md R71). "A number
outside the range of its field is an assembly error, not a truncation" (R80). Register numbers and `nn` are in range
by their types; the address `nnn` and the row count `n` are checked here.
-/
namespace Sys2Proof

/-- `nnn` fits its 12 bits (R71). -/
def addrInRange (nnn : Nat) : Bool := decide (nnn < 4096)

/-- `n` fits its 4 bits (R71). -/
def countInRange (n : Nat) : Bool := decide (n < 16)

def Instr.wellFormed : Instr → Bool
  | .jp nnn => addrInRange nnn
  | .call nnn => addrInRange nnn
  | .ldI nnn => addrInRange nnn
  | .jpV0 nnn => addrInRange nnn
  | .drw _ _ n => countInRange n
  | .cls => true
  | .ret => true
  | .seImm _ _ => true
  | .sneImm _ _ => true
  | .seReg _ _ => true
  | .ldImm _ _ => true
  | .addImm _ _ => true
  | .ldReg _ _ => true
  | .orReg _ _ => true
  | .andReg _ _ => true
  | .xorReg _ _ => true
  | .addReg _ _ => true
  | .subReg _ _ => true
  | .shr _ _ => true
  | .subnReg _ _ => true
  | .shl _ _ => true
  | .sneReg _ _ => true
  | .rnd _ _ => true
  | .skp _ => true
  | .sknp _ => true
  | .ldVxDt _ => true
  | .ldVxKey _ => true
  | .ldDtVx _ => true
  | .ldStVx _ => true
  | .addI _ => true
  | .ldFont _ => true
  | .ldBcd _ => true
  | .storeRegs _ => true
  | .loadRegs _ => true

end Sys2Proof
end

