-- ==== Sys2Proof/Decode.lean ====
section
/-!
DEFINITION. The instruction decoder (spec/30_encoding.md R70 to R78), total on all words and all byte lists, and the
encoder, the assembly syntax of R80 and R81 and the opcode table after it. A word is stored big-endian (20_memory.md R53).
-/
namespace Sys2Proof

/-- `op[hi:lo]`, the unsigned value of bits `hi` down to `lo` (00_scope.md R7). -/
def slice (op : Word) (hi lo : Nat) : Nat := op.toNat / 2 ^ lo % 2 ^ (hi + 1 - lo)

/-- The operation descriptor of R71: the class and the overlapping operand fields, extracted from every word. -/
structure Fields where
  cls : Nat
  x : Reg
  y : Reg
  n : Nat
  nn : Byte
  nnn : Nat
  deriving DecidableEq, Repr

/-- The field split of R71. It has no failure (R74). -/
def fields (op : Word) : Fields :=
  { cls := slice op 15 12
    x := Fin.ofNat 16 (slice op 11 8)
    y := Fin.ofNat 16 (slice op 7 4)
    n := slice op 3 0
    nn := BitVec.ofNat 8 (slice op 7 0)
    nnn := slice op 11 0 }

/-- The class 8 rows, keyed by `n` (R75). -/
def selectAlu (x y : Reg) (n : Nat) : Option Instr :=
  match n with
  | 0x0 => some (.ldReg x y)
  | 0x1 => some (.orReg x y)
  | 0x2 => some (.andReg x y)
  | 0x3 => some (.xorReg x y)
  | 0x4 => some (.addReg x y)
  | 0x5 => some (.subReg x y)
  | 0x6 => some (.shr x y)
  | 0x7 => some (.subnReg x y)
  | 0xE => some (.shl x y)
  | _ => none

/-- The class F rows, keyed by `nn` (R75). -/
def selectMisc (x : Reg) (nn : Byte) : Option Instr :=
  if nn = 0x07 then some (.ldVxDt x)
  else if nn = 0x0A then some (.ldVxKey x)
  else if nn = 0x15 then some (.ldDtVx x)
  else if nn = 0x18 then some (.ldStVx x)
  else if nn = 0x1E then some (.addI x)
  else if nn = 0x29 then some (.ldFont x)
  else if nn = 0x33 then some (.ldBcd x)
  else if nn = 0x55 then some (.storeRegs x)
  else if nn = 0x65 then some (.loadRegs x)
  else none

/-- The row of R75 that the fields select, or none: the word is illegal (R76). Classes 5 and 9 require `n = 0`
(decision D10). -/
def select (f : Fields) : Option Instr :=
  match f.cls with
  | 0x0 => if f.nnn = 0x0E0 then some .cls else if f.nnn = 0x0EE then some .ret else none
  | 0x1 => some (.jp f.nnn)
  | 0x2 => some (.call f.nnn)
  | 0x3 => some (.seImm f.x f.nn)
  | 0x4 => some (.sneImm f.x f.nn)
  | 0x5 => if f.n = 0 then some (.seReg f.x f.y) else none
  | 0x6 => some (.ldImm f.x f.nn)
  | 0x7 => some (.addImm f.x f.nn)
  | 0x8 => selectAlu f.x f.y f.n
  | 0x9 => if f.n = 0 then some (.sneReg f.x f.y) else none
  | 0xA => some (.ldI f.nnn)
  | 0xB => some (.jpV0 f.nnn)
  | 0xC => some (.rnd f.x f.nn)
  | 0xD => some (.drw f.x f.y f.n)
  | 0xE => if f.nn = 0x9E then some (.skp f.x) else if f.nn = 0xA1 then some (.sknp f.x) else none
  | 0xF => selectMisc f.x f.nn
  | _ => none

/-- The instruction a word is, or none for an illegal word (R75, R76, R77). -/
def decodeWord (op : Word) : Option Instr := select (fields op)

/-- Why a byte list starts with no instruction. -/
inductive DecodeReject
  /-- fewer than the two bytes of an instruction (R70) -/
  | truncated
  /-- the word matches no row of R75 (R76) -/
  | illegalWord (op : Word)
  deriving DecidableEq, Repr

/-- The word of two bytes, the one at the lower address in bits 15 to 8 (20_memory.md R53). -/
def wordOfBytes (hi lo : Byte) : Word := hi ++ lo

/-- Decode the instruction at the head of a byte list; answers it and the rest of the list. -/
def decodeBytes : List Byte → Except DecodeReject (Instr × List Byte)
  | hi :: lo :: rest =>
    match decodeWord (wordOfBytes hi lo) with
    | some i => .ok (i, rest)
    | none => .error (.illegalWord (wordOfBytes hi lo))
  | _ => .error .truncated

/-! ### The encoder -/

/-- A word of class `c` whose low 12 bits are `rest` (R72). -/
def wordOf (c rest : Nat) : Word := BitVec.ofNat 16 (c * 4096 + rest)

/-- Format XIMM: `x` and `nn` under the class (R72). -/
def wordXImm (c : Nat) (x : Reg) (nn : Byte) : Word := wordOf c (x.val * 256 + nn.toNat)

/-- Formats XY and XYN: `x`, `y` and the low nibble under the class (R72). -/
def wordXYN (c : Nat) (x y : Reg) (n : Nat) : Word := wordOf c (x.val * 256 + y.val * 16 + n)

/-- Format XSEL: `x` and the fixed selector under the class (R72). -/
def wordXSel (c : Nat) (x : Reg) (sel : Nat) : Word := wordOf c (x.val * 256 + sel)

/-- The word of an instruction (the Encoding line of each rule of 40 to 44). -/
def encode : Instr → Word
  | .cls => 0x00E0
  | .ret => 0x00EE
  | .jp nnn => wordOf 0x1 nnn
  | .call nnn => wordOf 0x2 nnn
  | .seImm x nn => wordXImm 0x3 x nn
  | .sneImm x nn => wordXImm 0x4 x nn
  | .seReg x y => wordXYN 0x5 x y 0x0
  | .ldImm x nn => wordXImm 0x6 x nn
  | .addImm x nn => wordXImm 0x7 x nn
  | .ldReg x y => wordXYN 0x8 x y 0x0
  | .orReg x y => wordXYN 0x8 x y 0x1
  | .andReg x y => wordXYN 0x8 x y 0x2
  | .xorReg x y => wordXYN 0x8 x y 0x3
  | .addReg x y => wordXYN 0x8 x y 0x4
  | .subReg x y => wordXYN 0x8 x y 0x5
  | .shr x y => wordXYN 0x8 x y 0x6
  | .subnReg x y => wordXYN 0x8 x y 0x7
  | .shl x y => wordXYN 0x8 x y 0xE
  | .sneReg x y => wordXYN 0x9 x y 0x0
  | .ldI nnn => wordOf 0xA nnn
  | .jpV0 nnn => wordOf 0xB nnn
  | .rnd x nn => wordXImm 0xC x nn
  | .drw x y n => wordXYN 0xD x y n
  | .skp x => wordXSel 0xE x 0x9E
  | .sknp x => wordXSel 0xE x 0xA1
  | .ldVxDt x => wordXSel 0xF x 0x07
  | .ldVxKey x => wordXSel 0xF x 0x0A
  | .ldDtVx x => wordXSel 0xF x 0x15
  | .ldStVx x => wordXSel 0xF x 0x18
  | .addI x => wordXSel 0xF x 0x1E
  | .ldFont x => wordXSel 0xF x 0x29
  | .ldBcd x => wordXSel 0xF x 0x33
  | .storeRegs x => wordXSel 0xF x 0x55
  | .loadRegs x => wordXSel 0xF x 0x65

/-- The two bytes of a word in the order memory holds them (20_memory.md R53). -/
def wordBytes (op : Word) : List Byte := [BitVec.ofNat 8 (slice op 15 8), BitVec.ofNat 8 (slice op 7 0)]

/-- The bytes of an instruction. -/
def encodeBytes (i : Instr) : List Byte := wordBytes (encode i)

/-- One line of an assembly program: an instruction or the directive `DB` (R81). -/
inductive AsmItem
  | instr (i : Instr)
  | db (bytes : List Byte)
  deriving DecidableEq, Repr

/-- The ROM image of a program, or none where an operand is out of its field's range (R80, R81, R244). -/
def assemble : List AsmItem → Option (List Byte)
  | [] => some []
  | .instr i :: rest => if i.wellFormed then (assemble rest).map (encodeBytes i ++ ·) else none
  | .db bytes :: rest => (assemble rest).map (bytes ++ ·)

/-- `V0` to `VF` (R80). -/
def regName (r : Reg) : String :=
  ["V0", "V1", "V2", "V3", "V4", "V5", "V6", "V7", "V8", "V9", "VA", "VB", "VC", "VD", "VE", "VF"].getD r.val ""

/-- An instruction as the spec writes it down (R80), numbers in decimal. Nothing in the machine depends on it. -/
def disassemble : Instr → String
  | .cls => "CLS"
  | .ret => "RET"
  | .jp nnn => "JP " ++ Nat.repr nnn
  | .call nnn => "CALL " ++ Nat.repr nnn
  | .seImm x nn => "SE " ++ regName x ++ ", " ++ Nat.repr nn.toNat
  | .sneImm x nn => "SNE " ++ regName x ++ ", " ++ Nat.repr nn.toNat
  | .seReg x y => "SE " ++ regName x ++ ", " ++ regName y
  | .ldImm x nn => "LD " ++ regName x ++ ", " ++ Nat.repr nn.toNat
  | .addImm x nn => "ADD " ++ regName x ++ ", " ++ Nat.repr nn.toNat
  | .ldReg x y => "LD " ++ regName x ++ ", " ++ regName y
  | .orReg x y => "OR " ++ regName x ++ ", " ++ regName y
  | .andReg x y => "AND " ++ regName x ++ ", " ++ regName y
  | .xorReg x y => "XOR " ++ regName x ++ ", " ++ regName y
  | .addReg x y => "ADD " ++ regName x ++ ", " ++ regName y
  | .subReg x y => "SUB " ++ regName x ++ ", " ++ regName y
  | .shr x y => "SHR " ++ regName x ++ ", " ++ regName y
  | .subnReg x y => "SUBN " ++ regName x ++ ", " ++ regName y
  | .shl x y => "SHL " ++ regName x ++ ", " ++ regName y
  | .sneReg x y => "SNE " ++ regName x ++ ", " ++ regName y
  | .ldI nnn => "LD I, " ++ Nat.repr nnn
  | .jpV0 nnn => "JP V0, " ++ Nat.repr nnn
  | .rnd x nn => "RND " ++ regName x ++ ", " ++ Nat.repr nn.toNat
  | .drw x y n => "DRW " ++ regName x ++ ", " ++ regName y ++ ", " ++ Nat.repr n
  | .skp x => "SKP " ++ regName x
  | .sknp x => "SKNP " ++ regName x
  | .ldVxDt x => "LD " ++ regName x ++ ", DT"
  | .ldVxKey x => "LD " ++ regName x ++ ", K"
  | .ldDtVx x => "LD DT, " ++ regName x
  | .ldStVx x => "LD ST, " ++ regName x
  | .addI x => "ADD I, " ++ regName x
  | .ldFont x => "LD F, " ++ regName x
  | .ldBcd x => "LD B, " ++ regName x
  | .storeRegs x => "LD [I], " ++ regName x
  | .loadRegs x => "LD " ++ regName x ++ ", [I]"

/-! ### The opcode table -/

/-- A row of R75: a word belongs to it when `op & mask = match`. -/
structure OpcodeRow where
  pattern : String
  format : Format
  mask : Word
  value : Word
  deriving DecidableEq, Repr

def OpcodeRow.matchesWord (r : OpcodeRow) (op : Word) : Bool := op &&& r.mask == r.value

/-- Classes 0 to 7 of the table of R75. -/
def opcodeRowsLow : List OpcodeRow :=
  [⟨"00E0", .fixed, 0xFFFF, 0x00E0⟩, ⟨"00EE", .fixed, 0xFFFF, 0x00EE⟩, ⟨"1NNN", .addr, 0xF000, 0x1000⟩,
   ⟨"2NNN", .addr, 0xF000, 0x2000⟩, ⟨"3XNN", .ximm, 0xF000, 0x3000⟩, ⟨"4XNN", .ximm, 0xF000, 0x4000⟩,
   ⟨"5XY0", .xy, 0xF00F, 0x5000⟩, ⟨"6XNN", .ximm, 0xF000, 0x6000⟩, ⟨"7XNN", .ximm, 0xF000, 0x7000⟩]

/-- Classes 8 to D. -/
def opcodeRowsMid : List OpcodeRow :=
  [⟨"8XY0", .xy, 0xF00F, 0x8000⟩, ⟨"8XY1", .xy, 0xF00F, 0x8001⟩, ⟨"8XY2", .xy, 0xF00F, 0x8002⟩,
   ⟨"8XY3", .xy, 0xF00F, 0x8003⟩, ⟨"8XY4", .xy, 0xF00F, 0x8004⟩, ⟨"8XY5", .xy, 0xF00F, 0x8005⟩,
   ⟨"8XY6", .xy, 0xF00F, 0x8006⟩, ⟨"8XY7", .xy, 0xF00F, 0x8007⟩, ⟨"8XYE", .xy, 0xF00F, 0x800E⟩,
   ⟨"9XY0", .xy, 0xF00F, 0x9000⟩, ⟨"ANNN", .addr, 0xF000, 0xA000⟩, ⟨"BNNN", .addr, 0xF000, 0xB000⟩,
   ⟨"CXNN", .ximm, 0xF000, 0xC000⟩, ⟨"DXYN", .xyn, 0xF000, 0xD000⟩]

/-- Classes E and F. -/
def opcodeRowsHigh : List OpcodeRow :=
  [⟨"EX9E", .xsel, 0xF0FF, 0xE09E⟩, ⟨"EXA1", .xsel, 0xF0FF, 0xE0A1⟩, ⟨"FX07", .xsel, 0xF0FF, 0xF007⟩,
   ⟨"FX0A", .xsel, 0xF0FF, 0xF00A⟩, ⟨"FX15", .xsel, 0xF0FF, 0xF015⟩, ⟨"FX18", .xsel, 0xF0FF, 0xF018⟩,
   ⟨"FX1E", .xsel, 0xF0FF, 0xF01E⟩, ⟨"FX29", .xsel, 0xF0FF, 0xF029⟩, ⟨"FX33", .xsel, 0xF0FF, 0xF033⟩,
   ⟨"FX55", .xsel, 0xF0FF, 0xF055⟩, ⟨"FX65", .xsel, 0xF0FF, 0xF065⟩]

/-- The table of R75, row for row. The decoder does not use it: that the two agree is a claim. -/
def opcodeRows : List OpcodeRow := opcodeRowsLow ++ opcodeRowsMid ++ opcodeRowsHigh

/-- The instruction the decoder reads from the word `w` of `nbits` bits, every bit above them 0: laid out as two
bytes, the high one first, and decoded. -/
def decodeTableWord (nbits w : Nat) : Option Instr :=
  match decodeBytes (wordBytes (BitVec.ofNat 16 (w % 2 ^ nbits))) with
  | .ok (i, _) => some i
  | .error _ => none

end Sys2Proof
end

