-- ==== Sys2Proof/Config.lean ====
section
/-!
DEFINITION. What the spec leaves OPEN as a parameter of the core (spec/00_scope.md R6): the font bytes, the random byte
and two rates. All are constants without a body, so that no proof can see a value of them.
-/
namespace Sys2Proof.Config

/-- `FONT[a]` for `a` in 0 to 79 (R52, D11 OPEN), which is what `MEM[a]` holds from reset on. Log 1. -/
opaque font : Nat → Byte

/-- The byte the outside supplies to the `n`-th draw when none has been supplied ahead (R132, R217, D22 OPEN: any
8-bit value, under no law). Log 2. -/
opaque randomByte : Nat → Byte

/-- `TICK_HZ`, ticks per second of wall-clock time (R6). No rule of the state uses it. Log 9. -/
def tickHz : Nat := 60

/-- `INSTR_RATE`, instructions per second (R6, D23 OPEN). No rule uses it. Log 9. -/
opaque instrRate : Nat

/-- `REFRESH_RATE`, the display's presentation cadence (R6, R215, D23 OPEN). No rule uses it. Log 9. -/
opaque refreshRate : Nat

/-- The customary font table of R52, which the spec marks "from general knowledge, not in source" (G1). Nothing in
the machine uses it: it is here for a claim that NAMES its font, as D11 asks. PRESUMED, log 1. -/
def defaultFont : List Byte :=
  [0xF0, 0x90, 0x90, 0x90, 0xF0] ++ [0x20, 0x60, 0x20, 0x20, 0x70] ++ [0xF0, 0x10, 0xF0, 0x80, 0xF0] ++
  [0xF0, 0x10, 0xF0, 0x10, 0xF0] ++ [0x90, 0x90, 0xF0, 0x10, 0x10] ++ [0xF0, 0x80, 0xF0, 0x10, 0xF0] ++
  [0xF0, 0x80, 0xF0, 0x90, 0xF0] ++ [0xF0, 0x10, 0x20, 0x40, 0x40] ++ [0xF0, 0x90, 0xF0, 0x90, 0xF0] ++
  [0xF0, 0x90, 0xF0, 0x10, 0xF0] ++ [0xF0, 0x90, 0xF0, 0x90, 0x90] ++ [0xE0, 0x90, 0xE0, 0x90, 0xE0] ++
  [0xF0, 0x80, 0x80, 0x80, 0xF0] ++ [0xE0, 0x90, 0x90, 0x90, 0xE0] ++ [0xF0, 0x80, 0xF0, 0x80, 0xF0] ++
  [0xF0, 0x80, 0xF0, 0x80, 0x80]

/-- The hypothesis of a claim that assumes the default font (R52, D11). -/
def FontIsDefault : Prop := ∀ a, a < 80 → some (font a) = defaultFont[a]?

end Sys2Proof.Config
end

