-- ==== Sys2Proof/Machine/State.lean ====
section
/-!
DEFINITION. The state of the core (spec/10_state.md R20 to R34), as plain data: every item of the table of R34, and
three fields of the model's own that hold the inputs of the run (R33: the schedule and the random bytes).
-/
namespace Sys2Proof.Machine

/-- `MODE`, what the fetch-decode-execute state machine is doing (R30). -/
inductive Mode
  /-- after reset, before `Start` -/
  | stopped
  /-- the Executor may perform instructions -/
  | running
  /-- an FX0A has been issued and has not completed -/
  | waitKey
  /-- a fault was raised -/
  | faulted
  deriving DecidableEq, Repr

/-- The 2-bit encoding of `MODE` (R30). -/
def Mode.code : Mode → BitVec 2
  | .stopped => 0
  | .running => 1
  | .waitKey => 2
  | .faulted => 3

/-- The four execution-time fault kinds (60_exceptions.md R200). -/
inductive FaultKind
  | invalidOpcode
  | stackOverflow
  | stackUnderflow
  | outOfBoundsAccess
  deriving DecidableEq, Repr

/-- The code of a kind in `FKIND` (R32). -/
def FaultKind.code : FaultKind → BitVec 3
  | .invalidOpcode => 1
  | .stackOverflow => 2
  | .stackUnderflow => 3
  | .outOfBoundsAccess => 4

/-- The 3-bit register `FKIND`: 0 is "none" (R32). -/
def fkindCode : Option FaultKind → BitVec 3
  | none => 0
  | some k => k.code

/-- The transitions that change the state, all agents' (00_scope.md R5). The random byte of `Exec(rnd)` stands in the
State field `rndIn` (log 2). -/
inductive Transition
  /-- the Executor performs one instruction (40_control_flow.md R100) -/
  | exec
  /-- the Timer Unit's only transition (60_exceptions.md R210) -/
  | tick
  /-- the host reports that a key went down (R212) -/
  | keyDown (k : Key)
  /-- the host reports that a key was released (R213) -/
  | keyUp (k : Key)
  /-- the host command `Reset` (70_reset_and_hazards.md R240) -/
  | reset
  /-- the host command `Load(rom)` (R241) -/
  | load (rom : List Byte)
  /-- the host command `Start` (R242) -/
  | start
  deriving DecidableEq, Repr

/-- `MEM` (R29): address and byte, addresses strictly rising, no entry equal to what an unlisted address reads as. -/
abbrev Memory := List Host.Cell

/-- `DISP`: 32 rows of 64 one-bit cells, `DISP[y][x]` (R27, 43_display.md R160). -/
abbrev Screen := Vector (Vector Bool 64) 32

structure State where
  /-- `V[0]` to `V[15]` (R20, R21) -/
  v : Vector Byte 16
  /-- `PC` (R22) -/
  pc : Word
  /-- `I` (R23) -/
  i : Word
  /-- `SP`, 0 to 16 (R24) -/
  sp : Fin 17
  /-- `STACK[0]` to `STACK[15]` (R24) -/
  stack : Vector Word 16
  /-- `DT` (R25) -/
  dt : Byte
  /-- `ST` (R26) -/
  st : Byte
  /-- `DISP` (R27) -/
  disp : Screen
  /-- `KEYS` (R28) -/
  keys : Vector Bool 16
  /-- `MEM` (R29) -/
  mem : Memory
  /-- `MODE` (R30) -/
  mode : Mode
  /-- `WAITX` (R31) -/
  waitX : Reg
  /-- `FKIND` (R32) -/
  fkind : Option FaultKind
  /-- `FPC` (R32) -/
  fpc : Word
  /-- `FOP` (R32) -/
  fop : Word
  /-- the model's own: the transitions still to come, oldest first (log 3) -/
  pending : List Transition
  /-- the model's own: random bytes the outside has supplied ahead, oldest first (log 2) -/
  rndIn : List Byte
  /-- the model's own: how many random bytes have been drawn (log 2) -/
  draws : Nat
  deriving DecidableEq, Repr

/-- Why a step has no next state. -/
inductive Fault
  /-- Raised by an `Exec` in `MODE = FAULTED`: the Executor "simply has no further transition" (R202, R203), and the
  machine stops with the fault on record. Safe: the machine it stops is frozen. Log 4. -/
  | halted (kind : Option FaultKind)
  deriving DecidableEq, Repr

/-- Why an instruction has no meaning. -/
inductive Refusal
  /-- Raised by `exec` for an instruction without a meaning. No arm of `exec` raises it. Safe. -/
  | notModelled (mnemonic : String)
  deriving DecidableEq, Repr

/-- The machine right after reset (R34, 70_reset_and_hazards.md R240): `MEM` lists nothing, since what an unlisted
address reads as IS the reset content. -/
def State.reset : State :=
  { v := Vector.replicate 16 0
    pc := 0x200
    i := 0
    sp := 0
    stack := Vector.replicate 16 0
    dt := 0
    st := 0
    disp := Vector.replicate 32 (Vector.replicate 64 false)
    keys := Vector.replicate 16 false
    mem := []
    mode := .stopped
    waitX := 0
    fkind := none
    fpc := 0
    fop := 0
    pending := []
    rndIn := []
    draws := 0 }

end Sys2Proof.Machine
end

