-- ==== Sys2Proof/Machine/Ops.lean ====
section
/-!
DEFINITION. The named operations over the state: registers, memory, the call stack, the display, the random input,
fault entry, and the check and commit that end every instruction (spec/40_control_flow.md R100 steps 4 and 5).
-/
namespace Sys2Proof.Machine

/-! ### Memory (20_memory.md) -/

/-- What an address that the list does not name reads as: the reset content (10_state.md R29, 20_memory.md R51). -/
def Memory.background (a : Nat) : Byte := if a < 80 then Config.font a else 0

/-- `MEM[a]`. -/
def Memory.read : Memory → Nat → Byte
  | [], a => Memory.background a
  | (b, w) :: m, a => if a = b then w else Memory.read m a

/-- The list with `(a, v)` in front, unless an unlisted `a` reads as `v` anyway. -/
def Memory.cons (a : Nat) (v : Byte) (m : Memory) : Memory :=
  if v = Memory.background a then m else (a, v) :: m

/-- `MEM[a] <- v`, in the canonical form. -/
def Memory.write : Memory → Nat → Byte → Memory
  | [], a, v => Memory.cons a v []
  | (b, w) :: m, a, v =>
    if a < b then Memory.cons a v ((b, w) :: m)
    else if a = b then Memory.cons a v m
    else (b, w) :: Memory.write m a v

/-- Store bytes at `a`, `a + 1`, ..., in ascending order (42_index_memory.md R146). -/
def Memory.writeBytes : Memory → Nat → List Byte → Memory
  | m, _, [] => m
  | m, a, b :: bs => Memory.writeBytes (Memory.write m a b) (a + 1) bs

/-- Every entry's address is above `lo`, addresses rise, lie in the address space, and no entry is redundant. -/
def Memory.wfFrom : Nat → Memory → Bool
  | _, [] => true
  | lo, (a, w) :: m =>
    decide (lo ≤ a) && decide (a < 4096) && decide (w ≠ Memory.background a) && Memory.wfFrom (a + 1) m

/-- The canonical form: equal memories are equal lists. -/
def Memory.wf (m : Memory) : Bool := Memory.wfFrom 0 m

/-- `MEM[a]` of a state. -/
def State.readByte (s : State) (a : Nat) : Byte := s.mem.read a

/-- `MemRead` of `n` bytes from `a`, all of them checked first (R54, 42_index_memory.md R146); `n = 0` accesses
nothing (43_display.md R162 (e)). -/
def memRead (s : State) (a n : Nat) : Except FaultKind (List Byte) :=
  if 1 ≤ n ∧ 4095 < a + n - 1 then .error .outOfBoundsAccess
  else .ok ((List.range n).map fun k => s.readByte (a + k))

/-- `MemWrite` of at least one byte at `a`, `a + 1`, ..., all of them checked first: above 4095 is out of bounds, and
below 80 is the font (R55, 42_index_memory.md R146). -/
def memWrite (s : State) (a : Nat) (bytes : List Byte) : Except FaultKind State :=
  if 4095 < a + bytes.length - 1 ∨ a < 80 then .error .outOfBoundsAccess
  else .ok { s with mem := s.mem.writeBytes a bytes }

/-! ### Registers (10_state.md) -/

/-- `V[r]` (R20). -/
def State.reg (s : State) (r : Reg) : Byte := s.v[r.val]

/-- `V[r] <- b` (R20). -/
def State.setReg (s : State) (r : Reg) (b : Byte) : State := { s with v := s.v.set r.val b r.isLt }

/-- `V[k]`, `V[k+1]`, ... `<-` the bytes, for as long as there are registers. -/
def State.setRegs : State → Nat → List Byte → State
  | s, _, [] => s
  | s, k, b :: bs => State.setRegs (if h : k < 16 then s.setReg ⟨k, h⟩ b else s) (k + 1) bs

/-- `PC <- npc`, for a value that `nextPcOk` has passed. -/
def State.setPc (s : State) (npc : Nat) : State := { s with pc := BitVec.ofNat 16 npc }

/-- `I <- w` (R23). -/
def State.setI (s : State) (w : Word) : State := { s with i := w }

/-- `DT <- b` (R25). -/
def State.setDt (s : State) (b : Byte) : State := { s with dt := b }

/-- `ST <- b` (R26). -/
def State.setSt (s : State) (b : Byte) : State := { s with st := b }

/-- `V[x]` then `VF`: with `x = 15` the flag remains (41_alu.md R120 (f): 8XY4, 8XY5, 8XY7). -/
def State.setRegThenFlag (s : State) (x : Reg) (r flag : Byte) : State := (s.setReg x r).setReg VF flag

/-- `VF` then `V[x]`: with `x = 15` the value remains (R120 (f): 8XY6, 8XYE). -/
def State.setFlagThenReg (s : State) (x : Reg) (r flag : Byte) : State := (s.setReg VF flag).setReg x r

/-! ### The call stack (10_state.md R24) -/

/-- Push a return address, or `StackOverflow` when 16 are held (40_control_flow.md R104). -/
def push (s : State) (w : Word) : Except FaultKind State :=
  if h : s.sp.val < 16 then
    .ok { s with stack := s.stack.set s.sp.val w h, sp := ⟨s.sp.val + 1, Nat.succ_lt_succ h⟩ }
  else .error .stackOverflow

/-- Pop the newest return address, or `StackUnderflow` when none is held (R105); the slot keeps its value (R24). -/
def pop (s : State) : Except FaultKind (Word × State) :=
  if h : s.sp.val = 0 then .error .stackUnderflow
  else
    .ok (s.stack[s.sp.val - 1]'(by have := s.sp.isLt; omega),
      { s with sp := ⟨s.sp.val - 1, by have := s.sp.isLt; omega⟩ })

/-! ### The display (43_display.md) -/

/-- `DISP[y][x]`; off outside the grid. -/
def Screen.lit (d : Screen) (y x : Nat) : Bool := if h : y < 32 ∧ x < 64 then (d[y]'h.1)[x]'h.2 else false

/-- `DISP[y][x] <- DISP[y][x] ^ 1`; nothing outside the grid. -/
def Screen.toggle (d : Screen) (y x : Nat) : Screen :=
  if h : y < 32 ∧ x < 64 then d.set y ((d[y]'h.1).set x (!(d[y]'h.1)[x]'h.2) h.2) h.1 else d

/-- Every cell off (R161). -/
def Screen.blank : Screen := Vector.replicate 32 (Vector.replicate 64 false)

/-- One sprite bit at `DISP[y][x]`: clipped outside the grid, else XORed in, with the collision noted (R162). -/
def plot (bit : Bool) (y x : Nat) (p : Screen × Bool) : Screen × Bool :=
  if bit && decide (x ≤ 63) && decide (y ≤ 31) then (Screen.toggle p.1 y x, p.2 || Screen.lit p.1 y x) else p

/-- One sprite byte on row `y`, bit 7 at column `x0` (R160, R162). -/
def drawRow (b : Byte) (y x0 : Nat) (p : Screen × Bool) : Screen × Bool :=
  (List.range 8).foldl (fun q c => plot (b.getLsbD (7 - c)) y (x0 + c) q) p

/-- The sprite's bytes on rows `y0`, `y0 + 1`, ... (R162). -/
def drawRows : List Byte → Nat → Nat → Screen × Bool → Screen × Bool
  | [], _, _, p => p
  | b :: bs, y0, x0, p => drawRows bs (y0 + 1) x0 (drawRow b y0 x0 p)

/-! ### The random input (41_alu.md R132, 60_exceptions.md R217) -/

/-- `rnd` of the current `Exec`: the next byte supplied from outside, else a free value (log 2). -/
def State.rnd (s : State) : Byte :=
  match s.rndIn with
  | b :: _ => b
  | [] => Config.randomByte s.draws

/-- The draw is used up: the next CXNN draws anew (R132). -/
def State.drawn (s : State) : State := { s with rndIn := s.rndIn.tail, draws := s.draws + 1 }

/-! ### Fault entry and the end of an instruction -/

/-- Taking a fault: `MODE`, `FKIND`, `FPC`, `FOP`, and nothing else (60_exceptions.md R201, R202). -/
def takeFault (k : FaultKind) (op : Word) (s : State) : State :=
  { s with mode := .faulted, fkind := some k, fpc := s.pc, fop := op }

/-- What a rule of 40 to 44 gives: `raise K`, or the state with the writes W done and the next program counter
(R100 step 3). -/
abbrev Effect := Except FaultKind (State × Nat)

/-- R102: a next program counter is legal when it is at most 4095 and even. -/
def nextPcOk (npc : Nat) : Bool := decide (npc ≤ 4095) && decide (npc % 2 = 0)

/-- Steps 3 to 5 of R100: a raised kind enters the fault from the state before the instruction; a bad next program
counter does too (R102); else the writes stand and `PC` moves. `FOP` is the word of the instruction (R201, log 5). -/
def commit (ins : Instr) (s : State) (e : Effect) : Host.Outcome State Fault Refusal :=
  match e with
  | .error k => .next (takeFault k (encode ins) s)
  | .ok (w, npc) =>
    if nextPcOk npc then .next (w.setPc npc) else .next (takeFault .outOfBoundsAccess (encode ins) s)

/-- The same for the one instruction whose commit leaves `PC` where it is (R100, 44_keypad_timer.md R172). -/
def commitHeld (ins : Instr) (s : State) (e : Effect) : Host.Outcome State Fault Refusal :=
  match e with
  | .error k => .next (takeFault k (encode ins) s)
  | .ok (w, npc) => if nextPcOk npc then .next w else .next (takeFault .outOfBoundsAccess (encode ins) s)

end Sys2Proof.Machine
end

