-- ==== Sys2Proof/Machine/Operands.lean ====
section
/-!
DEFINITION. The operand forms: next program counters, jump targets, effective addresses, sprite origins, key indexes,
decimal digits, register groups. Addresses and program counters are unbounded integers (spec/20_memory.md R50,
40_control_flow.md R101).
-/
namespace Sys2Proof.Machine

/-- `PC + 2`, the default advance (R101). -/
def pcNext (s : State) : Nat := s.pc.toNat + 2

/-- `PC + 4` when the condition of a skip holds, else `PC + 2` (R101). -/
def pcSkip (s : State) (taken : Bool) : Nat := if taken then s.pc.toNat + 4 else s.pc.toNat + 2

/-- The return address of a call, `PC + 2`, as a 16-bit value (R104). -/
def returnAddress (s : State) : Word := BitVec.ofNat 16 (s.pc.toNat + 2)

/-- `nnn + V[0]`, no wrap (R106). -/
def targetV0 (nnn : Nat) (s : State) : Nat := nnn + (s.reg 0).toNat

/-- The data address: `I + 0`, the base of index plus offset (42_index_memory.md R146). -/
def dataAddress (s : State) : Nat := s.i.toNat

/-- `zext_16(nnn)` (30_encoding.md R73). -/
def addrWord (nnn : Nat) : Word := BitVec.ofNat 16 nnn

/-- `(I + zext_16(V[x])) mod 65536` (R141). -/
def indexPlus (s : State) (x : Reg) : Word := BitVec.ofNat 16 (s.i.toNat + (s.reg x).toNat)

/-- `5 * zext_16(V[x])`, the font base being 0 (R142). -/
def glyphAddress (s : State) (x : Reg) : Word := BitVec.ofNat 16 (5 * (s.reg x).toNat)

/-- The three decimal digits of a byte, hundreds first, a byte each (R143). -/
def bcdDigits (b : Byte) : List Byte :=
  [BitVec.ofNat 8 (b.toNat / 100), BitVec.ofNat 8 (b.toNat / 10 % 10), BitVec.ofNat 8 (b.toNat % 10)]

/-- `V[0]` to `V[x]` inclusive (R144). -/
def regsUpTo (s : State) (x : Reg) : List Byte := s.v.toList.take (x.val + 1)

/-- The sprite's column origin, `V[x] mod 64` (43_display.md R162). -/
def spriteX (s : State) (x : Reg) : Nat := (s.reg x).toNat % 64

/-- The sprite's row origin, `V[y] mod 32` (R162). -/
def spriteY (s : State) (y : Reg) : Nat := (s.reg y).toNat % 32

/-- `KEYS[V[x]]`, or `OutOfBoundsAccess` when `V[x]` is no key number (44_keypad_timer.md R170). -/
def keyLevel (s : State) (x : Reg) : Except FaultKind Bool :=
  if h : (s.reg x).toNat < 16 then .ok (s.keys[(s.reg x).toNat]'h) else .error .outOfBoundsAccess

/-- The effect of a skip (R101). -/
def skipIf (s : State) (taken : Bool) : Effect := .ok (s, pcSkip s taken)

/-- The effect of an instruction that only writes and goes on to `PC + 2` (R101). -/
def advance (s w : State) : Effect := .ok (w, pcNext s)

end Sys2Proof.Machine
end

