-- ==== Sys2Proof/Machine/Flags.lean ====
section
/-!
DEFINITION. The 8-bit results and the flag values written to `VF` (spec/41_alu.md R120 to R133, 43_display.md R162).
Sums are computed on unbounded integers first, so carry and borrow are exact (R120 (a)).
-/
namespace Sys2Proof.Machine

/-- A flag writes 0 or 1 to all 8 bits of `VF` (10_state.md R21). -/
def flagByte (b : Bool) : Byte := if b then 1 else 0

/-- `(a + b) mod 256` (R122, R127). -/
def addResult (a b : Byte) : Byte := BitVec.ofNat 8 (a.toNat + b.toNat)

/-- 1 if `a + b > 255` (R127). -/
def carryFlag (a b : Byte) : Byte := flagByte (decide (255 < a.toNat + b.toNat))

/-- `(a - b) mod 256` (R128, R130). -/
def subResult (a b : Byte) : Byte := BitVec.ofNat 8 (256 + a.toNat - b.toNat)

/-- 1 if `a >= b`: no borrow (R128, R130). -/
def noBorrowFlag (a b : Byte) : Byte := flagByte (decide (b.toNat ≤ a.toNat))

/-- `a >> 1` (R129). -/
def shrResult (a : Byte) : Byte := BitVec.ofNat 8 (a.toNat / 2)

/-- `a[0]`, the bit shifted out (R129). -/
def shrFlag (a : Byte) : Byte := flagByte (a.getLsbD 0)

/-- `(a << 1) mod 256` (R131). -/
def shlResult (a : Byte) : Byte := BitVec.ofNat 8 (a.toNat * 2)

/-- `a[7]`, the bit shifted out (R131). -/
def shlFlag (a : Byte) : Byte := flagByte (a.getLsbD 7)

end Sys2Proof.Machine
end

