-- ==== Sys2Proof/Machine/Alu.lean ====
section
/-!
DEFINITION. Moves, arithmetic, logic, shifts and the random byte (spec/41_alu.md R120 to R133). All operands are read
from the state before the instruction (R120 (e)); the order of the two writes is the row's (R120 (f)).
-/
namespace Sys2Proof.Machine

/-- 6XNN (R121). -/
def execLdImm (x : Reg) (nn : Byte) (s : State) : Host.Outcome State Fault Refusal :=
  commit (.ldImm x nn) s (advance s (s.setReg x nn))

/-- 7XNN (R122): no flag. -/
def execAddImm (x : Reg) (nn : Byte) (s : State) : Host.Outcome State Fault Refusal :=
  commit (.addImm x nn) s (advance s (s.setReg x (addResult (s.reg x) nn)))

/-- 8XY0 (R123). -/
def execLdReg (x y : Reg) (s : State) : Host.Outcome State Fault Refusal :=
  commit (.ldReg x y) s (advance s (s.setReg x (s.reg y)))

/-- 8XY1 (R124): no flag. -/
def execOrReg (x y : Reg) (s : State) : Host.Outcome State Fault Refusal :=
  commit (.orReg x y) s (advance s (s.setReg x (s.reg x ||| s.reg y)))

/-- 8XY2 (R125): no flag. -/
def execAndReg (x y : Reg) (s : State) : Host.Outcome State Fault Refusal :=
  commit (.andReg x y) s (advance s (s.setReg x (s.reg x &&& s.reg y)))

/-- 8XY3 (R126): no flag. -/
def execXorReg (x y : Reg) (s : State) : Host.Outcome State Fault Refusal :=
  commit (.xorReg x y) s (advance s (s.setReg x (s.reg x ^^^ s.reg y)))

/-- 8XY4 (R127): the flag is written second. -/
def execAddReg (x y : Reg) (s : State) : Host.Outcome State Fault Refusal :=
  commit (.addReg x y) s
    (advance s (s.setRegThenFlag x (addResult (s.reg x) (s.reg y)) (carryFlag (s.reg x) (s.reg y))))

/-- 8XY5 (R128): the flag is written second. -/
def execSubReg (x y : Reg) (s : State) : Host.Outcome State Fault Refusal :=
  commit (.subReg x y) s
    (advance s (s.setRegThenFlag x (subResult (s.reg x) (s.reg y)) (noBorrowFlag (s.reg x) (s.reg y))))

/-- 8XY6 (R129): in place, `y` not used (R78); the value is written second. -/
def execShr (x y : Reg) (s : State) : Host.Outcome State Fault Refusal :=
  commit (.shr x y) s (advance s (s.setFlagThenReg x (shrResult (s.reg x)) (shrFlag (s.reg x))))

/-- 8XY7 (R130): the flag is written second. -/
def execSubnReg (x y : Reg) (s : State) : Host.Outcome State Fault Refusal :=
  commit (.subnReg x y) s
    (advance s (s.setRegThenFlag x (subResult (s.reg y) (s.reg x)) (noBorrowFlag (s.reg y) (s.reg x))))

/-- 8XYE (R131): in place, `y` not used (R78); the value is written second. -/
def execShl (x y : Reg) (s : State) : Host.Outcome State Fault Refusal :=
  commit (.shl x y) s (advance s (s.setFlagThenReg x (shlResult (s.reg x)) (shlFlag (s.reg x))))

/-- CXNN (R132). -/
def execRnd (x : Reg) (nn : Byte) (s : State) : Host.Outcome State Fault Refusal :=
  commit (.rnd x nn) s (advance s (s.drawn.setReg x (s.rnd &&& nn)))

end Sys2Proof.Machine
end

