-- ==== Sys2Proof/Machine/Control.lean ====
section
/-!
DEFINITION. Control transfer: 00EE, 1NNN, 2NNN, BNNN and the skips on registers (spec/40_control_flow.md R101 to R110).
-/
namespace Sys2Proof.Machine

/-- 1NNN (R103). -/
def execJp (nnn : Nat) (s : State) : Host.Outcome State Fault Refusal := commit (.jp nnn) s (.ok (s, nnn))

/-- 2NNN (R104): the full stack is found before the bad target (R204). -/
def execCall (nnn : Nat) (s : State) : Host.Outcome State Fault Refusal :=
  commit (.call nnn) s ((push s (returnAddress s)).map fun w => (w, nnn))

/-- 00EE (R105). -/
def execRet (s : State) : Host.Outcome State Fault Refusal :=
  commit .ret s ((pop s).map fun p => (p.2, p.1.toNat))

/-- BNNN (R106). -/
def execJpV0 (nnn : Nat) (s : State) : Host.Outcome State Fault Refusal :=
  commit (.jpV0 nnn) s (.ok (s, targetV0 nnn s))

/-- 3XNN (R107). -/
def execSeImm (x : Reg) (nn : Byte) (s : State) : Host.Outcome State Fault Refusal :=
  commit (.seImm x nn) s (skipIf s (s.reg x == nn))

/-- 4XNN (R108). -/
def execSneImm (x : Reg) (nn : Byte) (s : State) : Host.Outcome State Fault Refusal :=
  commit (.sneImm x nn) s (skipIf s (s.reg x != nn))

/-- 5XY0 (R109). -/
def execSeReg (x y : Reg) (s : State) : Host.Outcome State Fault Refusal :=
  commit (.seReg x y) s (skipIf s (s.reg x == s.reg y))

/-- 9XY0 (R110). -/
def execSneReg (x y : Reg) (s : State) : Host.Outcome State Fault Refusal :=
  commit (.sneReg x y) s (skipIf s (s.reg x != s.reg y))

end Sys2Proof.Machine
end

