-- ==== Sys2Proof/Machine/Display.lean ====
section
/-!
DEFINITION. The display instructions and the sprite rasterizer (spec/43_display.md R160 to R162).
-/
namespace Sys2Proof.Machine

/-- 00E0 (R161): `VF` is not written. -/
def execCls (s : State) : Host.Outcome State Fault Refusal :=
  commit .cls s (advance s { s with disp := Screen.blank })

/-- The display and the collision of a sprite at the origin of `V[x]`, `V[y]` (R162). -/
def drawSprite (s : State) (x y : Reg) (bytes : List Byte) : Screen × Bool :=
  drawRows bytes (spriteY s y) (spriteX s x) (s.disp, false)

/-- DXYN (R162): the origin comes from the old registers, all `n` bytes are checked even if clipped, and `VF` is always
written. -/
def execDrw (x y : Reg) (n : Nat) (s : State) : Host.Outcome State Fault Refusal :=
  commit (.drw x y n) s
    ((memRead s (dataAddress s) n).bind fun bytes =>
      advance s
        (State.setReg { s with disp := (drawSprite s x y bytes).1 } VF (flagByte (drawSprite s x y bytes).2)))

end Sys2Proof.Machine
end

