-- ==== Sys2Proof/Machine/IndexMemory.lean ====
section
/-!
DEFINITION. The index register, BCD, register store and load (spec/42_index_memory.md R140 to R146). `I` is unchanged
by every access (R146).
-/
namespace Sys2Proof.Machine

/-- ANNN (R140). -/
def execLdI (nnn : Nat) (s : State) : Host.Outcome State Fault Refusal :=
  commit (.ldI nnn) s (advance s (s.setI (addrWord nnn)))

/-- FX1E (R141): no flag. -/
def execAddI (x : Reg) (s : State) : Host.Outcome State Fault Refusal :=
  commit (.addI x) s (advance s (s.setI (indexPlus s x)))

/-- FX29 (R142): no mask, no fault. -/
def execLdFont (x : Reg) (s : State) : Host.Outcome State Fault Refusal :=
  commit (.ldFont x) s (advance s (s.setI (glyphAddress s x)))

/-- FX33 (R143). -/
def execLdBcd (x : Reg) (s : State) : Host.Outcome State Fault Refusal :=
  commit (.ldBcd x) s ((memWrite s (dataAddress s) (bcdDigits (s.reg x))).bind (advance s))

/-- FX55 (R144): `x + 1` registers, `x` being the field. -/
def execStoreRegs (x : Reg) (s : State) : Host.Outcome State Fault Refusal :=
  commit (.storeRegs x) s ((memWrite s (dataAddress s) (regsUpTo s x)).bind (advance s))

/-- FX65 (R145): `x + 1` registers. -/
def execLoadRegs (x : Reg) (s : State) : Host.Outcome State Fault Refusal :=
  commit (.loadRegs x) s
    ((memRead s (dataAddress s) (x.val + 1)).bind fun bytes => advance s (s.setRegs 0 bytes))

end Sys2Proof.Machine
end

