-- ==== Sys2Proof/Machine/KeypadTimer.lean ====
section
/-!
DEFINITION. Keypad skips, the key-wait and the timer moves (spec/44_keypad_timer.md R170 to R176). The completion of a
key-wait (R173) belongs to `KeyDown`: HostPort.lean.
-/
namespace Sys2Proof.Machine

/-- EX9E (R170). -/
def execSkp (x : Reg) (s : State) : Host.Outcome State Fault Refusal :=
  commit (.skp x) s ((keyLevel s x).bind fun down => skipIf s down)

/-- EXA1 (R171). -/
def execSknp (x : Reg) (s : State) : Host.Outcome State Fault Refusal :=
  commit (.sknp x) s ((keyLevel s x).bind fun down => skipIf s (!down))

/-- FX0A, issue (R172): `PC + 2` is validated now and applied when the wait completes. -/
def execLdVxKey (x : Reg) (s : State) : Host.Outcome State Fault Refusal :=
  commitHeld (.ldVxKey x) s (advance s { s with mode := .waitKey, waitX := x })

/-- FX07 (R174). -/
def execLdVxDt (x : Reg) (s : State) : Host.Outcome State Fault Refusal :=
  commit (.ldVxDt x) s (advance s (s.setReg x s.dt))

/-- FX15 (R175). -/
def execLdDtVx (x : Reg) (s : State) : Host.Outcome State Fault Refusal :=
  commit (.ldDtVx x) s (advance s (s.setDt (s.reg x)))

/-- FX18 (R176). -/
def execLdStVx (x : Reg) (s : State) : Host.Outcome State Fault Refusal :=
  commit (.ldStVx x) s (advance s (s.setSt (s.reg x)))

end Sys2Proof.Machine
end

