-- ==== Sys2Proof/Machine/HostPort.lean ====
section
/-!
DEFINITION. The transitions of the Timer Unit and the host, and the outputs the host may read
(spec/60_exceptions.md R210 to R218, R224; 70_reset_and_hazards.md R240 to R242).
-/
namespace Sys2Proof.Machine

/-- A timer's decrement, clamped at 0 (R210). -/
def countDown (b : Byte) : Byte := if b = 0 then 0 else b - 1

/-- `Tick` (R210): both timers, in `RUNNING` and `WAITKEY` only. -/
def tick (s : State) : State :=
  if s.mode = .running ∨ s.mode = .waitKey then { s with dt := countDown s.dt, st := countDown s.st } else s

/-- FX0A, completion (44_keypad_timer.md R173). -/
def completeWait (k : Key) (s : State) : State :=
  { (s.setReg s.waitX (BitVec.ofNat 8 k.val)) with pc := s.pc + 2, mode := .running }

/-- `KeyDown(k)` (R212): a key already down is no press; a press ends a key-wait. -/
def keyDown (k : Key) (s : State) : State :=
  if s.keys[k.val] then s
  else
    let w := if s.mode = .waitKey then completeWait k s else s
    { w with keys := w.keys.set k.val true k.isLt }

/-- `KeyUp(k)` (R213). -/
def keyUp (k : Key) (s : State) : State := { s with keys := s.keys.set k.val false k.isLt }

/-- One key of a level sample (R214). -/
def sampleKey (keyIn : Vector Bool 16) (s : State) (k : Key) : State :=
  if keyIn[k.val] && !s.keys[k.val] then keyDown k s
  else if !keyIn[k.val] && s.keys[k.val] then keyUp k s
  else s

/-- A sample of the level vector `key_in[15:0]`, keys in ascending order (R214). -/
def sampleKeys (keyIn : Vector Bool 16) (s : State) : State := (List.finRange 16).foldl (sampleKey keyIn) s

/-- `Reset` (R240): every piece of the core's state takes its reset value; the inputs still to come are the outside's,
not the core's, and stay (R33, log 3). -/
def resetCore (s : State) : State :=
  { State.reset with pending := s.pending, rndIn := s.rndIn, draws := s.draws }

/-- The result of `Load`, returned to the host and not stored (R241). -/
inductive LoadResult
  | ok | romTooLarge | ignored
  deriving DecidableEq, Repr

/-- `Load(rom)` (R241). -/
def loadRom (rom : List Byte) (s : State) : LoadResult × State :=
  if s.mode ≠ .stopped then (.ignored, s)
  else if 4096 < 0x200 + rom.length then (.romTooLarge, s)
  else (.ok, { s with mem := s.mem.writeBytes 0x200 rom })

/-- `Start` (R242). -/
def start (s : State) : State := if s.mode = .stopped then { s with mode := .running } else s

/-- What the host can read between transitions (R215, R216, R218), and nothing else (R224, 10_state.md R36). -/
structure HostView where
  disp : Screen
  st : Byte
  soundOn : Bool
  mode : BitVec 2
  fkind : BitVec 3
  fpc : Word
  fop : Word
  deriving DecidableEq, Repr

/-- The read-only outputs of the interface table R224. -/
def observe (s : State) : HostView :=
  { disp := s.disp
    st := s.st
    soundOn := s.st != 0
    mode := s.mode.code
    fkind := fkindCode s.fkind
    fpc := s.fpc
    fop := s.fop }

end Sys2Proof.Machine
end

