-- ==== Sys2Proof/Machine/Executor.lean ====
section
/-!
DEFINITION. The Executor's transition `Exec` (spec/40_control_flow.md R100) and the performance of one transition of any
agent (00_scope.md R5).
-/
namespace Sys2Proof.Machine

/-- The word at `PC`, big-endian (20_memory.md R53). -/
def wordAt (s : State) (a : Nat) : Word := wordOfBytes (s.readByte a) (s.readByte (a + 1))

/-- The fetch, with its check of `PC` (20_memory.md R56). -/
def fetch (s : State) : Except FaultKind Word :=
  if s.pc.toNat % 2 = 1 ∨ 4094 < s.pc.toNat then .error .outOfBoundsAccess else .ok (wordAt s s.pc.toNat)

/-- R100 in `RUNNING`: fetch, decode, execute; the fetch fault records 0 for the word (R56, R201), an illegal word is
`InvalidOpcode` (30_encoding.md R76). -/
def runInstruction (s : State) : Host.Outcome State Fault Refusal :=
  match fetch s with
  | .error k => .next (takeFault k 0 s)
  | .ok op =>
    match decodeWord op with
    | none => .next (takeFault .invalidOpcode op s)
    | some ins => exec ins s

/-- `Exec`: enabled only in `RUNNING` (R100). In `STOPPED` and `WAITKEY` the Executor is held and nothing changes; in
`FAULTED` it is halted for good (log 4). -/
def execTransition (s : State) : Host.Outcome State Fault Refusal :=
  match s.mode with
  | .running => runInstruction s
  | .stopped => .next s
  | .waitKey => .next s
  | .faulted => .fault (.halted s.fkind)

/-- One transition (00_scope.md R5). -/
def perform (t : Transition) (s : State) : Host.Outcome State Fault Refusal :=
  match t with
  | .exec => execTransition s
  | .tick => .next (tick s)
  | .keyDown k => .next (keyDown k s)
  | .keyUp k => .next (keyUp k s)
  | .reset => .next (resetCore s)
  | .load rom => .next (loadRom rom s).2
  | .start => .next (start s)

/-- The transition the schedule puts next, and the state with it taken off the schedule (60_exceptions.md R219); when
nothing is scheduled, the Executor's (log 3). -/
def nextTransition (s : State) : Transition × State :=
  match s.pending with
  | [] => (.exec, s)
  | t :: rest => (t, { s with pending := rest })

/-- The states of an endless run in which transition `sched n` is the `n`-th to be performed (R219). An `Exec` in
`FAULTED`, which is not enabled, leaves the state as it is. -/
def endlessRun (sched : Nat → Transition) (s : State) : Nat → State
  | 0 => s
  | n + 1 =>
    match perform (sched n) (endlessRun sched s n) with
    | .next t => t
    | .fault _ => endlessRun sched s n
    | .refused _ => endlessRun sched s n

/-- The state with a word at `PC`, the Executor running and nothing else scheduled: what `Load` and `Start` bring about
(70_reset_and_hazards.md R243, log 11). -/
def placeWord (s : State) (op : Word) : State :=
  { s with mem := s.mem.writeBytes s.pc.toNat (wordBytes op), mode := .running, pending := [] }

end Sys2Proof.Machine
end

