-- ==== Sys2Proof/Machine/Step.lean ====
section
/-!
DEFINITION. One step: the transition the schedule puts next (spec/00_scope.md R4, R5; 60_exceptions.md R219).
-/
namespace Sys2Proof.Machine

def step (s : State) : Host.Outcome State Fault Refusal := perform (nextTransition s).1 (nextTransition s).2

/-- The state whose very next step runs the instruction word `w` of `nbits` bits (log 11). -/
def State.withFetchWord (s : State) (nbits w : Nat) : State := placeWord s (BitVec.ofNat 16 (w % 2 ^ nbits))

end Sys2Proof.Machine
end

