-- ==== Sys2Proof/Safety.lean ====
section
/-!
DEFINITION. The terms in which claims about a run are made: how a run ends (spec/70_reset_and_hazards.md R254,
60_exceptions.md R218), what a fault entry is (R202), what a part of the state being unchanged means, and the
invariants of every reachable state (10_state.md R31, R32, R35).
-/
namespace Sys2Proof.Machine

/-! ### How a run ends -/

/-- The "faulted halt" (R218). -/
abbrev FaultedHalt (s : State) : Prop := s.mode = .faulted ∧ s.fkind.isSome = true

/-- A safe state: no fault is on record, so that a stop here is a "normal halt" (R218). -/
abbrev NoFault (s : State) : Prop := s.mode ≠ .faulted ∧ s.fkind = none

/-- The "settled" state (R254 (c)): the program has ended in a jump to itself. -/
abbrev Settled (s : State) : Prop :=
  s.mode = .running ∧ s.pc.toNat % 2 = 0 ∧ s.pc.toNat ≤ 4094 ∧
    (wordAt s s.pc.toNat).toNat = 0x1000 + s.pc.toNat

/-! ### Fairness of an endless run (60_exceptions.md R219) -/

/-- R219 (b): while `MODE = RUNNING`, an `Exec` eventually happens. -/
abbrev FairToExecutor (sched : Nat → Transition) (s : State) : Prop :=
  ∀ n, (∀ m, n ≤ m → (endlessRun sched s m).mode = .running) → ∃ m, n ≤ m ∧ sched m = .exec

/-- R219 (c): while `MODE` is `RUNNING` or `WAITKEY`, a `Tick` eventually happens. -/
abbrev FairToTimers (sched : Nat → Transition) (s : State) : Prop :=
  ∀ n, (∀ m, n ≤ m → (endlessRun sched s m).mode = .running ∨ (endlessRun sched s m).mode = .waitKey) →
    ∃ m, n ≤ m ∧ sched m = .tick

/-! ### Where an instruction completes, and what a fault entry leaves -/

/-- `PC` is even and `PC + 2` is a legal next program counter (40_control_flow.md R102). -/
abbrev CanAdvance (s : State) : Prop := s.pc.toNat % 2 = 0 ∧ s.pc.toNat ≤ 4092

/-- `PC` is an address an instruction can be fetched from (20_memory.md R56). -/
abbrev CanFetch (s : State) : Prop := s.pc.toNat % 2 = 0 ∧ s.pc.toNat ≤ 4094

/-- The state after entering the fault `k` on the word `op`, written out from R202. -/
abbrev faultedWith (k : FaultKind) (op : Word) (s : State) : State :=
  { s with mode := .faulted, fkind := some k, fpc := s.pc, fop := op }

/-! ### The Encoding lines of the rules, as the spec writes them -/

/-- `c | nnn` (format ADDR). -/
abbrev encAddr (c : Word) (nnn : Nat) : Word := c ||| BitVec.ofNat 16 nnn
/-- `c | x<<8 | nn` (format XIMM). -/
abbrev encXImm (c : Word) (x : Reg) (nn : Byte) : Word := c ||| (BitVec.ofNat 16 x.val <<< 8) ||| nn.setWidth 16
/-- `c | x<<8 | y<<4` (format XY). -/
abbrev encXY (c : Word) (x y : Reg) : Word := c ||| (BitVec.ofNat 16 x.val <<< 8) ||| (BitVec.ofNat 16 y.val <<< 4)
/-- `c | x<<8` (format XSEL). -/
abbrev encX (c : Word) (x : Reg) : Word := c ||| (BitVec.ofNat 16 x.val <<< 8)

/-! ### Frames -/

abbrev SameRegsBut (rs : List Reg) (s t : State) : Prop := ∀ r, r ∉ rs → t.reg r = s.reg r
abbrev SameMemory (s t : State) : Prop := ∀ a, t.readByte a = s.readByte a
/-- Every byte outside the `n` bytes from `lo` reads as before. -/
abbrev SameMemoryOutside (lo n : Nat) (s t : State) : Prop :=
  ∀ a, a < lo ∨ lo + n ≤ a → t.readByte a = s.readByte a
abbrev SameIndex (s t : State) : Prop := t.i = s.i
abbrev SameStack (s t : State) : Prop := t.sp = s.sp ∧ t.stack = s.stack
abbrev SameTimers (s t : State) : Prop := t.dt = s.dt ∧ t.st = s.st
abbrev SameDisplay (s t : State) : Prop := t.disp = s.disp
abbrev SameKeys (s t : State) : Prop := t.keys = s.keys
/-- `MODE`, `WAITX` and the fault record. -/
abbrev SameControl (s t : State) : Prop :=
  t.mode = s.mode ∧ t.waitX = s.waitX ∧ t.fkind = s.fkind ∧ t.fpc = s.fpc ∧ t.fop = s.fop
/-- The model's own input fields. -/
abbrev SameInputs (s t : State) : Prop := t.pending = s.pending ∧ t.rndIn = s.rndIn ∧ t.draws = s.draws

/-- Nothing but the registers `rs` and `PC` changed. -/
abbrev OnlyRegs (rs : List Reg) (s t : State) : Prop :=
  SameRegsBut rs s t ∧ SameMemory s t ∧ SameIndex s t ∧ SameStack s t ∧ SameTimers s t ∧ SameDisplay s t ∧
    SameKeys s t ∧ SameControl s t ∧ SameInputs s t

/-- The registers an instruction may write: its destination and, for the six flag writers, `VF` (10_state.md R21,
41_alu.md R133). FX0A writes none when it is issued (44_keypad_timer.md R172). -/
def writesRegs : Instr → List Reg
  | .ldImm x _ | .addImm x _ | .ldReg x _ | .orReg x _ | .andReg x _ | .xorReg x _ | .rnd x _ | .ldVxDt x => [x]
  | .addReg x _ | .subReg x _ | .subnReg x _ | .shr x _ | .shl x _ => [x, VF]
  | .drw _ _ _ => [VF]
  | .loadRegs x => (List.finRange 16).filter fun r => decide (r ≤ x)
  | .cls | .ret | .jp _ | .call _ | .seImm _ _ | .sneImm _ _ | .seReg _ _ | .sneReg _ _ | .ldI _ | .jpV0 _
  | .skp _ | .sknp _ | .ldVxKey _ | .ldDtVx _ | .ldStVx _ | .addI _ | .ldFont _ | .ldBcd _ | .storeRegs _ => []

/-- How many bytes an instruction stores from `dataAddress` on (20_memory.md R63). -/
def storedBytes : Instr → Nat
  | .ldBcd _ => 3
  | .storeRegs x => x.val + 1
  | .cls | .ret | .jp _ | .call _ | .seImm _ _ | .sneImm _ _ | .seReg _ _ | .ldImm _ _ | .addImm _ _ | .ldReg _ _
  | .orReg _ _ | .andReg _ _ | .xorReg _ _ | .addReg _ _ | .subReg _ _ | .shr _ _ | .subnReg _ _ | .shl _ _
  | .sneReg _ _ | .ldI _ | .jpV0 _ | .rnd _ _ | .drw _ _ _ | .skp _ | .sknp _ | .ldVxDt _ | .ldVxKey _ | .ldDtVx _
  | .ldStVx _ | .addI _ | .ldFont _ | .loadRegs _ => 0

/-- The instructions whose next program counter is a target and not an advance (40_control_flow.md R101). -/
def isTransfer : Instr → Bool
  | .jp _ | .call _ | .ret | .jpV0 _ => true
  | .cls | .seImm _ _ | .sneImm _ _ | .seReg _ _ | .ldImm _ _ | .addImm _ _ | .ldReg _ _
  | .orReg _ _ | .andReg _ _ | .xorReg _ _ | .addReg _ _ | .subReg _ _ | .shr _ _ | .subnReg _ _ | .shl _ _
  | .sneReg _ _ | .ldI _ | .rnd _ _ | .drw _ _ _ | .skp _ | .sknp _ | .ldVxDt _ | .ldVxKey _ | .ldDtVx _
  | .ldStVx _ | .addI _ | .ldFont _ | .ldBcd _ | .storeRegs _ | .loadRegs _ => false

/-! ### Sprites, calls, reachable states -/

/-- Whether the sprite of `n` bytes at `I`, with its origin at column `x0` and row `y0`, has a set bit on the cell of row
`row` and column `col` (43_display.md R160, R162), said cell by cell. -/
def spritePixel (s : State) (x0 y0 n row col : Nat) : Bool :=
  decide (y0 ≤ row) && decide (row < y0 + n) && decide (x0 ≤ col) && decide (col < x0 + 8) &&
    (s.readByte (dataAddress s + (row - y0))).getLsbD (7 - (col - x0))

/-- Calls one after another, each executed where the one before it went. -/
def callAll : List Nat → State → Host.Outcome State Fault Refusal
  | [], s => .next s
  | nnn :: rest, s =>
    match exec (.call nnn) s with
    | .next t => callAll rest t
    | .fault r => .fault r
    | .refused r => .refused r

/-- `n` ticks (60_exceptions.md R210). -/
def ticks : Nat → State → State
  | 0, s => s
  | n + 1, s => ticks n (tick s)

/-- What holds in every state reachable from reset: R35 (a), (c), (d), (e) ((b) is the type of `sp`), the canonical
form of memory, and what a key-wait keeps (R31, and the validation of `PC + 2` at issue, 44_keypad_timer.md R172). -/
structure Inv (s : State) : Prop where
  pcEven : s.pc.toNat % 2 = 0
  pcLow : s.pc.toNat ≤ 4094
  font : ∀ a, a < 80 → s.readByte a = Config.font a
  fault : s.fkind.isSome = true ↔ s.mode = .faulted
  returns : ∀ k (h : k < 16), k < s.sp.val →
    s.stack[k].toNat % 2 = 0 ∧ 2 ≤ s.stack[k].toNat ∧ s.stack[k].toNat ≤ 4096
  memory : s.mem.wf = true
  waitRoom : s.mode = .waitKey → s.pc.toNat ≤ 4092
  waitWord : s.mode = .waitKey → wordAt s s.pc.toNat = encode (.ldVxKey s.waitX)

end Sys2Proof.Machine
end

