-- ==== Sys2Proof/Certificates/Slice0/Obligations.lean ====
section
/-!
DEFINITION. The statements for the provers. Each docstring names the rules of spec/ it comes from; "decision D<n>" says
that a clause rests on the spec's own choice in 92_eei_decisions.md, and "log <n>" on the model's.
-/
open Sys2Proof Sys2Proof.Machine

/-! ### Encoding and decoding -/

/-- Words written out bit by bit from the table of R75, one at least of each family, and illegal words (vectors T-E1 to
T-E15; the illegal ones rest on decisions D9 and D10). -/
def Obligations.WrittenOutWordsDecode : Prop :=
  decodeWord 0b0000000011100000 = some .cls ∧ decodeWord 0b0000000011101110 = some .ret ∧
  decodeWord 0b0001001000110100 = some (.jp 0x234) ∧ decodeWord 0b0011101000010010 = some (.seImm 10 0x12) ∧
  decodeWord 0b1000101010110100 = some (.addReg 10 11) ∧ decodeWord 0b1000001000110110 = some (.shr 2 3) ∧
  decodeWord 0b1010111111111111 = some (.ldI 0xFFF) ∧ decodeWord 0b1100001100001111 = some (.rnd 3 0x0F) ∧
  decodeWord 0b1101010110100011 = some (.drw 5 10 3) ∧ decodeWord 0b1110000010011110 = some (.skp 0) ∧
  decodeWord 0b1111111101100101 = some (.loadRegs 15) ∧
  decodeWord 0x0000 = none ∧ decodeWord 0x00E1 = none ∧ decodeWord 0x01E0 = none ∧ decodeWord 0x5231 = none ∧
  decodeWord 0x9AB7 = none ∧ decodeWord 0x8008 = none ∧ decodeWord 0xE09F = none ∧ decodeWord 0xF000 = none ∧
  decodeWord 0xFFFF = none

/-- R71: the class and the five operand fields of every word, and how they overlap. -/
def Obligations.FieldSplitOfEveryWord : Prop :=
  ∀ op : Word,
    (fields op).cls = (op.extractLsb' 12 4).toNat ∧ (fields op).x.val = (op.extractLsb' 8 4).toNat ∧
    (fields op).y.val = (op.extractLsb' 4 4).toNat ∧ (fields op).n = (op.extractLsb' 0 4).toNat ∧
    (fields op).nn = op.extractLsb' 0 8 ∧ (fields op).nnn = (op.extractLsb' 0 12).toNat ∧
    (fields op).nn.toNat = 16 * (fields op).y.val + (fields op).n ∧
    (fields op).nnn = 256 * (fields op).x.val + 16 * (fields op).y.val + (fields op).n

/-- The bytes of every well-formed instruction, in memory order and followed by anything, decode to the instruction and
leave the rest: no bit of an encoding is dropped and the byte order is the one of the fetch (R53, R72, R75). -/
def Obligations.DecodeOfEncodedBytes : Prop :=
  ∀ i : Instr, i.wellFormed = true → ∀ rest : List Byte, decodeBytes (encodeBytes i ++ rest) = .ok (i, rest)

/-- The other direction: a word that decodes is the word of its instruction, whose operands are in range. -/
def Obligations.EncodeOfDecodedWord : Prop :=
  ∀ (op : Word) (i : Instr), decodeWord op = some i → encode i = op ∧ i.wellFormed = true

/-- The decoder agrees with the table of R75: a word that decodes matches the row of its instruction's pattern and
format and no other row, and a word that does not decode matches no row (R76; decisions D9, D10). -/
def Obligations.DecoderAgreesWithTable : Prop :=
  ∀ op : Word,
    (∀ i, decodeWord op = some i →
      ∃ r ∈ opcodeRows, r.matchesWord op = true ∧ r.pattern = i.pattern ∧ r.format = i.format ∧
        ∀ q ∈ opcodeRows, q.matchesWord op = true → q = r) ∧
    (decodeWord op = none → ∀ r ∈ opcodeRows, r.matchesWord op = false)

/-! ### The step -/

/-- Rule R100 of the Executor, running: when the word at `PC` decodes, a step with nothing scheduled is `exec` of the
instruction, and a step with `Exec` scheduled next is `exec` of it from the state with that entry taken off the schedule
(the schedule is the model's form of R219, log 3). -/
def Obligations.StepRunsDecodedInstruction : Prop :=
  ∀ (s : State) (i : Instr), s.mode = .running → CanFetch s →
    decodeWord (wordOfBytes (s.readByte s.pc.toNat) (s.readByte (s.pc.toNat + 1))) = some i →
    (s.pending = [] → step s = exec i s) ∧
    (∀ rest, s.pending = .exec :: rest → step s = exec i { s with pending := rest })

/-- What a step in `RUNNING` does when there is no instruction to execute. An odd `PC` or one above 4094 enters
`OutOfBoundsAccess` with 0 recorded for the word (R56; decision D8). An illegal word enters `InvalidOpcode` with the word
recorded, and changes nothing else (R76, R202; decisions D5, D9). -/
def Obligations.FetchAndDecodeFaults : Prop :=
  ∀ s : State, s.mode = .running → s.pending = [] →
    (s.pc.toNat % 2 = 1 ∨ 4094 < s.pc.toNat → step s = .next (faultedWith .outOfBoundsAccess 0 s)) ∧
    (CanFetch s → decodeWord (wordOfBytes (s.readByte s.pc.toNat) (s.readByte (s.pc.toNat + 1))) = none →
      step s = .next (faultedWith .invalidOpcode
        (wordOfBytes (s.readByte s.pc.toNat) (s.readByte (s.pc.toNat + 1))) s))

/-- `Exec` is enabled only in `RUNNING` (R100): with nothing else scheduled a step in `STOPPED` or `WAITKEY` changes
nothing, and in `FAULTED` the machine is halted with its fault on record. That the two look like this to a caller of
`step` is the model's choice (log 4). -/
def Obligations.ExecutorHeldUnlessRunning : Prop :=
  ∀ s : State, s.pending = [] →
    (s.mode = .stopped ∨ s.mode = .waitKey → step s = .next s) ∧
    (s.mode = .faulted → step s = .fault (.halted s.fkind))

/-- The word that the host's placement stores is the one that the next step runs (log 11). -/
def Obligations.PlacedWordRunsNext : Prop :=
  ∀ (s : State) (w : Nat) (i : Instr), s.mem.wf = true → CanFetch s → decodeTableWord 16 w = some i →
    step (s.withFetchWord 16 w) = exec i (s.withFetchWord 16 w)

/-! ### Faults -/

/-- Every instruction answers a next state from every state, and a faulting one commits nothing: only `MODE` and the
fault record change, `FPC` being the instruction's address and `FOP` its word (R200 to R202; decision D5, log 5). -/
def Obligations.FaultingInstructionCommitsNothing : Prop :=
  ∀ (i : Instr) (s : State), ∃ t, exec i s = .next t ∧
    (s.mode ≠ .faulted → t.mode = .faulted → ∃ k, t = faultedWith k (encode i) s)

/-- R102, R249: any instruction but a jump, call or return that stands in the last word of memory faults with
`OutOfBoundsAccess`, and so does a skip on an immediate that is taken from the word before it (decision D7). -/
def Obligations.OnlyTransfersCompleteInLastWord : Prop :=
  (∀ (i : Instr) (s : State), isTransfer i = false → s.pc = 0xFFE →
    exec i s = .next (faultedWith .outOfBoundsAccess (encode i) s)) ∧
  (∀ (x : Reg) (nn : Byte) (s : State), s.pc = 0xFFC →
    (s.reg x = nn → exec (.seImm x nn) s = .next (faultedWith .outOfBoundsAccess (encode (.seImm x nn)) s)) ∧
    (s.reg x ≠ nn → exec (.sneImm x nn) s = .next (faultedWith .outOfBoundsAccess (encode (.sneImm x nn)) s)))

/-! ### Whole-machine frames -/

/-- An instruction writes no register but its destination and, for the six flag writers, `VF` (R21, R133). -/
def Obligations.RegistersWrittenByInstruction : Prop :=
  ∀ (i : Instr) (s t : State), exec i s = .next t → SameRegsBut (writesRegs i) s t

/-- Memory is written only by FX33 and FX55, and only the bytes they store (R63). -/
def Obligations.MemoryWrittenOnlyByStores : Prop :=
  ∀ (i : Instr) (s t : State), s.mem.wf = true → exec i s = .next t →
    SameMemoryOutside (dataAddress s) (storedBytes i) s t

/-- Which instruction writes which other part of the state: `I` by ANNN, FX1E, FX29 (R23); the stack by 2NNN and 00EE
(R24); `DT` by FX15 (R25); `ST` by FX18 (R26); `DISP` by 00E0 and DXYN (R27); `KEYS` by none (R28); `WAITX` by FX0A
(R31); `FPC` and `FOP` only in a fault (R32); the random input by CXNN and the schedule by none (logs 2, 3). -/
def Obligations.OtherStateWrittenByInstruction : Prop :=
  ∀ (i : Instr) (s t : State), exec i s = .next t →
    ((∀ nnn x, i ≠ .ldI nnn ∧ i ≠ .addI x ∧ i ≠ .ldFont x) → SameIndex s t) ∧
    ((∀ nnn, i ≠ .call nnn ∧ i ≠ .ret) → SameStack s t) ∧
    ((∀ x, i ≠ .ldDtVx x) → t.dt = s.dt) ∧
    ((∀ x, i ≠ .ldStVx x) → t.st = s.st) ∧
    ((∀ x y n, i ≠ .cls ∧ i ≠ .drw x y n) → SameDisplay s t) ∧
    SameKeys s t ∧
    ((∀ x, i ≠ .ldVxKey x) → t.waitX = s.waitX) ∧
    (t.mode ≠ .faulted → t.fkind = s.fkind ∧ t.fpc = s.fpc ∧ t.fop = s.fop) ∧
    ((∀ x nn, i ≠ .rnd x nn) → t.rndIn = s.rndIn ∧ t.draws = s.draws) ∧
    t.pending = s.pending

/-! ### Control transfer -/

/-- 1NNN: an even target is where `PC` goes, and nothing else changes (R103); an odd one faults (R102, decision D8). -/
def Obligations.JumpResult : Prop :=
  ∀ (nnn : Nat) (s : State), nnn < 4096 →
    decodeWord (encAddr 0x1000 nnn) = some (.jp nnn) ∧
    (nnn % 2 = 0 → exec (.jp nnn) s = .next { s with pc := BitVec.ofNat 16 nnn }) ∧
    (nnn % 2 = 1 → exec (.jp nnn) s = .next (faultedWith .outOfBoundsAccess (encode (.jp nnn)) s))

/-- 2NNN: pushes `PC + 2` and goes to an even target (R104); a full stack is `StackOverflow`, even with an odd target
(R204, decision D6); an odd target with room is `OutOfBoundsAccess` (decision D8). The slot written is the one at `SP`;
the other slots keep their values (R24). -/
def Obligations.CallResult : Prop :=
  ∀ (nnn : Nat) (s : State), nnn < 4096 →
    decodeWord (encAddr 0x2000 nnn) = some (.call nnn) ∧
    (s.sp.val < 16 → nnn % 2 = 0 → s.pc.toNat ≤ 4094 → ∃ t, exec (.call nnn) s = .next t ∧
      t.pc.toNat = nnn ∧ t.sp.val = s.sp.val + 1 ∧
      (∀ k (h : k < 16), k = s.sp.val → t.stack[k].toNat = s.pc.toNat + 2) ∧
      (∀ k (h : k < 16), k ≠ s.sp.val → t.stack[k] = s.stack[k]) ∧
      SameRegsBut [] s t ∧ SameMemory s t ∧ SameIndex s t ∧ SameTimers s t ∧ SameDisplay s t ∧ SameKeys s t ∧
      SameControl s t ∧ SameInputs s t) ∧
    (s.sp.val = 16 → exec (.call nnn) s = .next (faultedWith .stackOverflow (encode (.call nnn)) s)) ∧
    (s.sp.val < 16 → nnn % 2 = 1 →
      exec (.call nnn) s = .next (faultedWith .outOfBoundsAccess (encode (.call nnn)) s))

/-- 00EE: `PC` goes to the newest return address and the depth falls by one, the slot keeping its value (R105, R24); an
empty stack is `StackUnderflow`; a popped value that is no legal `PC` is `OutOfBoundsAccess`, with nothing popped
(R102). -/
def Obligations.ReturnResult : Prop :=
  ∀ s : State,
    decodeWord 0x00EE = some .ret ∧
    (s.sp.val = 0 → exec .ret s = .next (faultedWith .stackUnderflow 0x00EE s)) ∧
    (∀ h : s.sp.val - 1 < 16, s.sp.val ≠ 0 →
      (s.stack[s.sp.val - 1].toNat ≤ 4095 ∧ s.stack[s.sp.val - 1].toNat % 2 = 0 →
        ∃ t, exec .ret s = .next t ∧ t.pc = s.stack[s.sp.val - 1] ∧ t.sp.val = s.sp.val - 1 ∧ t.stack = s.stack ∧
          SameRegsBut [] s t ∧ SameMemory s t ∧ SameIndex s t ∧ SameTimers s t ∧ SameDisplay s t ∧ SameKeys s t ∧
          SameControl s t ∧ SameInputs s t) ∧
      (¬(s.stack[s.sp.val - 1].toNat ≤ 4095 ∧ s.stack[s.sp.val - 1].toNat % 2 = 0) →
        exec .ret s = .next (faultedWith .outOfBoundsAccess 0x00EE s)))

/-- A call and the return from it come back to the instruction after the call with the depth and every register, byte
and cell as before (R104, R105, R111). -/
def Obligations.CallThenReturnComesBack : Prop :=
  ∀ (nnn : Nat) (s : State), nnn < 4096 → nnn % 2 = 0 → s.sp.val < 16 → CanAdvance s →
    ∃ t u, exec (.call nnn) s = .next t ∧ exec .ret t = .next u ∧
      u = { s with pc := BitVec.ofNat 16 (s.pc.toNat + 2), stack := u.stack } ∧
      (∀ k (h : k < 16), k < s.sp.val → u.stack[k] = s.stack[k])

/-- "CALL 16 times without RET faults with StackOverflow on the 17th" (R104, R247), whatever the targets. -/
def Obligations.SeventeenthCallOverflows : Prop :=
  ∀ (targets : List Nat) (s : State), targets.length = 16 → (∀ a ∈ targets, a < 4096 ∧ a % 2 = 0) →
    s.sp.val = 0 → s.mode = .running →
    ∃ t, callAll targets s = .next t ∧ t.sp.val = 16 ∧ t.mode = .running ∧
      ∀ nnn, exec (.call nnn) t = .next (faultedWith .stackOverflow (encode (.call nnn)) t)

/-- BNNN adds `V0`, never another register, without wrapping (R106); an odd or too large sum faults (R102, decisions D7
and D8). -/
def Obligations.IndirectJumpResult : Prop :=
  ∀ (nnn : Nat) (s : State), nnn < 4096 →
    decodeWord (encAddr 0xB000 nnn) = some (.jpV0 nnn) ∧
    (nnn + (s.reg 0).toNat ≤ 4095 ∧ (nnn + (s.reg 0).toNat) % 2 = 0 →
      exec (.jpV0 nnn) s = .next { s with pc := BitVec.ofNat 16 (nnn + (s.reg 0).toNat) }) ∧
    (4095 < nnn + (s.reg 0).toNat ∨ (nnn + (s.reg 0).toNat) % 2 = 1 →
      exec (.jpV0 nnn) s = .next (faultedWith .outOfBoundsAccess (encode (.jpV0 nnn)) s))

/-- 3XNN skips exactly when `V[x] = nn` and 4XNN exactly when not, by 4 bytes and else by 2, and nothing else changes
(R107, R108). The taken skip past the end of memory is in OnlyTransfersCompleteInLastWord. -/
def Obligations.SkipOnImmediate : Prop :=
  ∀ (x : Reg) (nn : Byte) (s : State), CanAdvance s →
    decodeWord (encXImm 0x3000 x nn) = some (.seImm x nn) ∧ decodeWord (encXImm 0x4000 x nn) = some (.sneImm x nn) ∧
    (s.reg x = nn →
      (s.pc.toNat ≤ 4090 → exec (.seImm x nn) s = .next { s with pc := BitVec.ofNat 16 (s.pc.toNat + 4) }) ∧
      exec (.sneImm x nn) s = .next { s with pc := BitVec.ofNat 16 (s.pc.toNat + 2) }) ∧
    (s.reg x ≠ nn →
      (s.pc.toNat ≤ 4090 → exec (.sneImm x nn) s = .next { s with pc := BitVec.ofNat 16 (s.pc.toNat + 4) }) ∧
      exec (.seImm x nn) s = .next { s with pc := BitVec.ofNat 16 (s.pc.toNat + 2) })

/-- 5XY0 skips exactly when `V[x] = V[y]` and 9XY0 exactly when not; so `x = y` always and never skips (R109, R110;
the fault by R102, decision D7). -/
def Obligations.SkipOnRegisters : Prop :=
  ∀ (x y : Reg) (s : State), CanAdvance s →
    decodeWord (encXY 0x5000 x y) = some (.seReg x y) ∧ decodeWord (encXY 0x9000 x y) = some (.sneReg x y) ∧
    (s.reg x = s.reg y →
      (s.pc.toNat ≤ 4090 → exec (.seReg x y) s = .next { s with pc := BitVec.ofNat 16 (s.pc.toNat + 4) }) ∧
      (s.pc.toNat = 4092 → exec (.seReg x y) s = .next (faultedWith .outOfBoundsAccess (encode (.seReg x y)) s)) ∧
      exec (.sneReg x y) s = .next { s with pc := BitVec.ofNat 16 (s.pc.toNat + 2) }) ∧
    (s.reg x ≠ s.reg y →
      (s.pc.toNat ≤ 4090 → exec (.sneReg x y) s = .next { s with pc := BitVec.ofNat 16 (s.pc.toNat + 4) }) ∧
      (s.pc.toNat = 4092 → exec (.sneReg x y) s = .next (faultedWith .outOfBoundsAccess (encode (.sneReg x y)) s)) ∧
      exec (.seReg x y) s = .next { s with pc := BitVec.ofNat 16 (s.pc.toNat + 2) })

/-! ### Arithmetic -/

/-- 6XNN: "executing 6XNN then reading register X yields NN" (R121). -/
def Obligations.LoadImmediate : Prop :=
  ∀ (x : Reg) (nn : Byte) (s : State), CanAdvance s →
    decodeWord (encXImm 0x6000 x nn) = some (.ldImm x nn) ∧
    ∃ t, exec (.ldImm x nn) s = .next t ∧ t.reg x = nn ∧ t.pc.toNat = s.pc.toNat + 2 ∧ OnlyRegs [x] s t

/-- 7XNN: the sum mod 256 and no flag change (R122). -/
def Obligations.AddImmediate : Prop :=
  ∀ (x : Reg) (nn : Byte) (s : State), CanAdvance s →
    decodeWord (encXImm 0x7000 x nn) = some (.addImm x nn) ∧
    ∃ t, exec (.addImm x nn) s = .next t ∧ (t.reg x).toNat = ((s.reg x).toNat + nn.toNat) % 256 ∧
      t.pc.toNat = s.pc.toNat + 2 ∧ OnlyRegs [x] s t

/-- 8XY0: a move (R123). -/
def Obligations.MoveRegister : Prop :=
  ∀ (x y : Reg) (s : State), CanAdvance s →
    decodeWord (encXY 0x8000 x y) = some (.ldReg x y) ∧
    ∃ t, exec (.ldReg x y) s = .next t ∧ t.reg x = s.reg y ∧ t.pc.toNat = s.pc.toNat + 2 ∧ OnlyRegs [x] s t

/-- 8XY1, 8XY2, 8XY3, bit by bit, `VF` not written unless it is the destination (R124 to R126; decision D15). -/
def Obligations.BitwiseLogic : Prop :=
  ∀ (x y : Reg) (s : State), CanAdvance s →
    (∃ t, exec (.orReg x y) s = .next t ∧
      (∀ k < 8, (t.reg x).getLsbD k = ((s.reg x).getLsbD k || (s.reg y).getLsbD k)) ∧
      t.pc.toNat = s.pc.toNat + 2 ∧ OnlyRegs [x] s t) ∧
    (∃ t, exec (.andReg x y) s = .next t ∧
      (∀ k < 8, (t.reg x).getLsbD k = ((s.reg x).getLsbD k && (s.reg y).getLsbD k)) ∧
      t.pc.toNat = s.pc.toNat + 2 ∧ OnlyRegs [x] s t) ∧
    (∃ t, exec (.xorReg x y) s = .next t ∧
      (∀ k < 8, (t.reg x).getLsbD k = ((s.reg x).getLsbD k != (s.reg y).getLsbD k)) ∧
      t.pc.toNat = s.pc.toNat + 2 ∧ OnlyRegs [x] s t)

/-- 8XY4: the sum mod 256, and `VF` the carry; with `x = 15` the flag remains (R127; the order of the writes is decision
D14, R120 (f)). -/
def Obligations.AddWithCarry : Prop :=
  ∀ (x y : Reg) (s : State), CanAdvance s →
    ∃ t, exec (.addReg x y) s = .next t ∧
      (x ≠ VF → (t.reg x).toNat = ((s.reg x).toNat + (s.reg y).toNat) % 256) ∧
      (t.reg VF).toNat = (if 255 < (s.reg x).toNat + (s.reg y).toNat then 1 else 0) ∧
      t.pc.toNat = s.pc.toNat + 2 ∧ OnlyRegs [x, VF] s t

/-- 8XY5 and 8XY7: the difference mod 256, and `VF` = no borrow; with `x = 15` the flag remains (R128, R130; decision
D14, R120 (f)). -/
def Obligations.SubtractBothWays : Prop :=
  ∀ (x y : Reg) (s : State), CanAdvance s →
    (∃ t, exec (.subReg x y) s = .next t ∧
      (x ≠ VF → ((t.reg x).toNat + (s.reg y).toNat) % 256 = (s.reg x).toNat) ∧
      (t.reg VF).toNat = (if (s.reg y).toNat ≤ (s.reg x).toNat then 1 else 0) ∧
      t.pc.toNat = s.pc.toNat + 2 ∧ OnlyRegs [x, VF] s t) ∧
    (∃ t, exec (.subnReg x y) s = .next t ∧
      (x ≠ VF → ((t.reg x).toNat + (s.reg x).toNat) % 256 = (s.reg y).toNat) ∧
      (t.reg VF).toNat = (if (s.reg x).toNat ≤ (s.reg y).toNat then 1 else 0) ∧
      t.pc.toNat = s.pc.toNat + 2 ∧ OnlyRegs [x, VF] s t)

/-- 8XY6 and 8XYE shift `V[x]` in place and put the bit shifted out into `VF`; with `x = 15` the value remains; `y` makes
no difference (R78, R129, R131; decisions D14 and D15). -/
def Obligations.ShiftsInPlace : Prop :=
  ∀ (x y : Reg) (s : State), CanAdvance s →
    (∃ t, exec (.shr x y) s = .next t ∧
      (∀ k < 8, (t.reg x).getLsbD k = (s.reg x).getLsbD (k + 1)) ∧
      (x ≠ VF → (t.reg VF).toNat = ((s.reg x).getLsbD 0).toNat) ∧
      t.pc.toNat = s.pc.toNat + 2 ∧ OnlyRegs [x, VF] s t) ∧
    (∃ t, exec (.shl x y) s = .next t ∧
      (∀ k < 8, (t.reg x).getLsbD k = (decide (k ≠ 0) && (s.reg x).getLsbD (k - 1))) ∧
      (x ≠ VF → (t.reg VF).toNat = ((s.reg x).getLsbD 7).toNat) ∧
      t.pc.toNat = s.pc.toNat + 2 ∧ OnlyRegs [x, VF] s t)

/-- CXNN: the random byte AND `nn` (R132). The byte is the next one supplied from outside, used up by the draw, or else a
free value; in either case no bit outside `nn` is set (decision D22, log 2). -/
def Obligations.RandomByteIsMasked : Prop :=
  ∀ (x : Reg) (nn : Byte) (s : State), CanAdvance s →
    ∃ t, exec (.rnd x nn) s = .next t ∧
      (∀ b rest, s.rndIn = b :: rest → t.reg x = b &&& nn ∧ t.rndIn = rest) ∧
      (s.rndIn = [] → t.reg x = Config.randomByte s.draws &&& nn ∧ t.rndIn = []) ∧
      t.reg x &&& ~~~nn = 0 ∧ t.draws = s.draws + 1 ∧ t.pending = s.pending ∧ t.pc.toNat = s.pc.toNat + 2 ∧
      SameRegsBut [x] s t ∧ SameMemory s t ∧ SameIndex s t ∧ SameStack s t ∧ SameTimers s t ∧ SameDisplay s t ∧
      SameKeys s t ∧ SameControl s t

/-! ### The index register and memory -/

/-- ANNN: `I` takes the address, bits 15 to 12 zero, and no memory is accessed (R140). -/
def Obligations.SetIndex : Prop :=
  ∀ (nnn : Nat) (s : State), nnn < 4096 → CanAdvance s →
    decodeWord (encAddr 0xA000 nnn) = some (.ldI nnn) ∧
    ∃ t, exec (.ldI nnn) s = .next t ∧ t.i.toNat = nnn ∧ t.pc.toNat = s.pc.toNat + 2 ∧
      SameRegsBut [] s t ∧ SameMemory s t ∧ SameStack s t ∧ SameTimers s t ∧ SameDisplay s t ∧ SameKeys s t ∧
      SameControl s t ∧ SameInputs s t

/-- FX1E adds mod 65536 with no flag (R141; decision D15); FX29 gives `5 * V[x]`, unmasked (R142; decision D18). -/
def Obligations.IndexArithmetic : Prop :=
  ∀ (x : Reg) (s : State), CanAdvance s →
    (∃ t, exec (.addI x) s = .next t ∧ t.i.toNat = (s.i.toNat + (s.reg x).toNat) % 65536 ∧
      t.pc.toNat = s.pc.toNat + 2 ∧ SameRegsBut [] s t ∧ SameMemory s t ∧ SameStack s t ∧ SameTimers s t ∧
      SameDisplay s t ∧ SameKeys s t ∧ SameControl s t ∧ SameInputs s t) ∧
    (∃ t, exec (.ldFont x) s = .next t ∧ t.i.toNat = 5 * (s.reg x).toNat ∧
      t.pc.toNat = s.pc.toNat + 2 ∧ SameRegsBut [] s t ∧ SameMemory s t ∧ SameStack s t ∧ SameTimers s t ∧
      SameDisplay s t ∧ SameKeys s t ∧ SameControl s t ∧ SameInputs s t)

/-- FX33 stores the hundreds, tens and ones digits at `I`, `I + 1`, `I + 2` and changes no other byte (R143; decision
D19); outside 80 to 4095 it faults and stores nothing (decision D12). -/
def Obligations.BcdStore : Prop :=
  ∀ (x : Reg) (s : State), s.mem.wf = true → CanAdvance s →
    (80 ≤ s.i.toNat ∧ s.i.toNat ≤ 4093 →
      ∃ t, exec (.ldBcd x) s = .next t ∧
        100 * (t.readByte (dataAddress s)).toNat + 10 * (t.readByte (dataAddress s + 1)).toNat +
          (t.readByte (dataAddress s + 2)).toNat = (s.reg x).toNat ∧
        (t.readByte (dataAddress s + 1)).toNat ≤ 9 ∧ (t.readByte (dataAddress s + 2)).toNat ≤ 9 ∧
        dataAddress s = s.i.toNat ∧ SameMemoryOutside (dataAddress s) 3 s t ∧ t.pc.toNat = s.pc.toNat + 2 ∧
        SameRegsBut [] s t ∧ SameIndex s t ∧ SameStack s t ∧ SameTimers s t ∧ SameDisplay s t ∧ SameKeys s t ∧
        SameControl s t ∧ SameInputs s t) ∧
    (s.i.toNat < 80 ∨ 4093 < s.i.toNat →
      exec (.ldBcd x) s = .next (faultedWith .outOfBoundsAccess (encode (.ldBcd x)) s))

/-- FX55 stores `V[0]` to `V[x]` at `I` upward, `x + 1` bytes, leaves `I` and changes no other byte (R144, R146; decision
D15); a range that leaves 80 to 4095 faults and stores nothing (decision D12). -/
def Obligations.StoreRegisters : Prop :=
  ∀ (x : Reg) (s : State), s.mem.wf = true → CanAdvance s →
    (80 ≤ s.i.toNat ∧ s.i.toNat + x.val ≤ 4095 →
      ∃ t, exec (.storeRegs x) s = .next t ∧
        (∀ r : Reg, r ≤ x → t.readByte (dataAddress s + r.val) = s.reg r) ∧
        dataAddress s = s.i.toNat ∧ SameMemoryOutside (dataAddress s) (x.val + 1) s t ∧
        t.pc.toNat = s.pc.toNat + 2 ∧ SameRegsBut [] s t ∧ SameIndex s t ∧ SameStack s t ∧ SameTimers s t ∧
        SameDisplay s t ∧ SameKeys s t ∧ SameControl s t ∧ SameInputs s t) ∧
    (s.i.toNat < 80 ∨ 4095 < s.i.toNat + x.val →
      exec (.storeRegs x) s = .next (faultedWith .outOfBoundsAccess (encode (.storeRegs x)) s))

/-- FX65 loads `x + 1` registers from `I` upward and leaves memory, `I` and the registers above `V[x]` alone; a range that
passes 4095 faults and no register is written (R145). -/
def Obligations.LoadRegisters : Prop :=
  ∀ (x : Reg) (s : State), CanAdvance s →
    decodeWord (encX 0xF065 x) = some (.loadRegs x) ∧
    (s.i.toNat + x.val ≤ 4095 →
      ∃ t, exec (.loadRegs x) s = .next t ∧
        (∀ r : Reg, r ≤ x → t.reg r = s.readByte (s.i.toNat + r.val)) ∧ (∀ r : Reg, x < r → t.reg r = s.reg r) ∧
        t.pc.toNat = s.pc.toNat + 2 ∧ SameMemory s t ∧ SameIndex s t ∧ SameStack s t ∧ SameTimers s t ∧
        SameDisplay s t ∧ SameKeys s t ∧ SameControl s t ∧ SameInputs s t) ∧
    (4095 < s.i.toNat + x.val →
      ∃ t, exec (.loadRegs x) s = .next t ∧ t.mode = .faulted ∧ t.fkind = some .outOfBoundsAccess ∧
        SameRegsBut [] s t)

/-- What FX55 stored, FX65 loads back, whatever the registers held in between and wherever the load stands (R144,
R145). -/
def Obligations.StoreThenLoadRestores : Prop :=
  ∀ (x : Reg) (s : State) (w : Vector Byte 16) (pc : Word), s.mem.wf = true → CanAdvance s → 80 ≤ s.i.toNat →
    s.i.toNat + x.val ≤ 4095 → pc.toNat % 2 = 0 → pc.toNat ≤ 4092 →
    ∃ t u, exec (.storeRegs x) s = .next t ∧ exec (.loadRegs x) { t with v := w, pc := pc } = .next u ∧
      ∀ r : Reg, r ≤ x → u.reg r = s.reg r

/-- Self-modifying code: a store over the next instruction is what the next step runs (R62; decision D27). -/
def Obligations.StoreOverNextInstructionRuns : Prop :=
  ∀ (x : Reg) (s : State) (i : Instr), s.mem.wf = true → CanAdvance s → s.mode = .running → s.pending = [] →
    1 ≤ x.val → 80 ≤ s.i.toNat → s.i.toNat = s.pc.toNat + 2 → s.i.toNat + x.val ≤ 4095 →
    decodeWord (s.reg 0 ++ s.reg 1) = some i →
    ∃ t, exec (.storeRegs x) s = .next t ∧ t.pc.toNat = s.pc.toNat + 2 ∧ step t = exec i t

/-- Memories that read alike are equal: the canonical form holds one list for each content (log 7). -/
def Obligations.EqualReadsEqualMemory : Prop :=
  ∀ m n : Memory, m.wf = true → n.wf = true → (∀ a, m.read a = n.read a) → m = n

/-! ### The display -/

/-- 00E0: every cell off and nothing else changed (R161). -/
def Obligations.ClearScreen : Prop :=
  ∀ s : State, CanAdvance s →
    decodeWord 0x00E0 = some .cls ∧
    ∃ t, exec .cls s = .next t ∧ (∀ row col, row < 32 → col < 64 → Screen.lit t.disp row col = false) ∧
      t.pc.toNat = s.pc.toNat + 2 ∧ SameRegsBut [] s t ∧ SameMemory s t ∧ SameIndex s t ∧ SameStack s t ∧
      SameTimers s t ∧ SameKeys s t ∧ SameControl s t ∧ SameInputs s t

/-- DXYN, cell by cell: each cell of the grid is XORed with the sprite's bit on it, so what falls outside is clipped and
only the origin wraps; `VF` is 1 exactly when a lit cell was under a set bit; with `n = 0` nothing is read; the origin
comes from the old registers (R160, R162; decision D16 and, for the operand order, D14). Bytes past 4095 fault, clipped
rows included, and neither the display nor `VF` changes (R162 (f), decision D16). -/
def Obligations.SpriteDrawnCellByCell : Prop :=
  ∀ (x y : Reg) (n : Nat) (s : State), CanAdvance s →
    (n ≠ 0 ∧ 4095 < s.i.toNat + n - 1 →
      exec (.drw x y n) s = .next (faultedWith .outOfBoundsAccess (encode (.drw x y n)) s)) ∧
    (n = 0 ∨ s.i.toNat + n - 1 ≤ 4095 →
    ∃ t, exec (.drw x y n) s = .next t ∧
      (∀ row col, row < 32 → col < 64 →
        Screen.lit t.disp row col =
          (Screen.lit s.disp row col != spritePixel s ((s.reg x).toNat % 64) ((s.reg y).toNat % 32) n row col)) ∧
      (t.reg VF = 0 ∨ t.reg VF = 1) ∧
      (t.reg VF = 1 ↔ ∃ row col, row < 32 ∧ col < 64 ∧
        spritePixel s ((s.reg x).toNat % 64) ((s.reg y).toNat % 32) n row col = true ∧
        Screen.lit s.disp row col = true) ∧
      t.pc.toNat = s.pc.toNat + 2 ∧ SameRegsBut [VF] s t ∧ SameMemory s t ∧ SameIndex s t ∧ SameStack s t ∧
      SameTimers s t ∧ SameKeys s t ∧ SameControl s t ∧ SameInputs s t)

/-- Drawing a sprite twice at one place restores the whole display, and the second draw's `VF` tells whether the first
lit a cell (the source property of R162: XOR self-cancellation). The origin registers are not `VF`, which a draw writes;
where the first draw has `x = 15` or `y = 15`, the second starts from another origin. -/
def Obligations.DrawingTwiceErases : Prop :=
  ∀ (x y : Reg) (n : Nat) (s : State), s.pc.toNat % 2 = 0 → s.pc.toNat ≤ 4090 →
    (n = 0 ∨ s.i.toNat + n - 1 ≤ 4095) → x ≠ VF → y ≠ VF →
    ∃ t u, exec (.drw x y n) s = .next t ∧ exec (.drw x y n) t = .next u ∧ u.disp = s.disp ∧
      (u.reg VF = 1 ↔ ∃ row col, row < 32 ∧ col < 64 ∧ Screen.lit t.disp row col = true ∧
        Screen.lit s.disp row col = false)

/-! ### Keypad and timers -/

/-- EX9E skips when the key numbered by `V[x]` is down and EXA1 when it is up (R170, R171); a number above 15 faults
(decision D17); a taken skip past memory faults (R102, decision D7). -/
def Obligations.SkipOnKey : Prop :=
  ∀ (x : Reg) (s : State), CanAdvance s →
    (∀ h : (s.reg x).toNat < 16,
      (s.keys[(s.reg x).toNat] = true →
        (s.pc.toNat ≤ 4090 → exec (.skp x) s = .next { s with pc := BitVec.ofNat 16 (s.pc.toNat + 4) }) ∧
        (s.pc.toNat = 4092 → exec (.skp x) s = .next (faultedWith .outOfBoundsAccess (encode (.skp x)) s)) ∧
        exec (.sknp x) s = .next { s with pc := BitVec.ofNat 16 (s.pc.toNat + 2) }) ∧
      (s.keys[(s.reg x).toNat] = false →
        (s.pc.toNat ≤ 4090 → exec (.sknp x) s = .next { s with pc := BitVec.ofNat 16 (s.pc.toNat + 4) }) ∧
        (s.pc.toNat = 4092 → exec (.sknp x) s = .next (faultedWith .outOfBoundsAccess (encode (.sknp x)) s)) ∧
        exec (.skp x) s = .next { s with pc := BitVec.ofNat 16 (s.pc.toNat + 2) })) ∧
    (15 < (s.reg x).toNat →
      exec (.skp x) s = .next (faultedWith .outOfBoundsAccess (encode (.skp x)) s) ∧
      exec (.sknp x) s = .next (faultedWith .outOfBoundsAccess (encode (.sknp x)) s))

/-- FX0A, issue: the machine waits, with `PC` at the FX0A and no register written, whatever keys are down (R172;
decision D20). -/
def Obligations.KeyWaitIssue : Prop :=
  ∀ (x : Reg) (s : State), CanAdvance s →
    decodeWord (encX 0xF00A x) = some (.ldVxKey x) ∧
    ∃ t, exec (.ldVxKey x) s = .next t ∧ t.mode = .waitKey ∧ t.waitX = x ∧ t.pc = s.pc ∧
      SameRegsBut [] s t ∧ SameMemory s t ∧ SameIndex s t ∧ SameStack s t ∧ SameTimers s t ∧ SameDisplay s t ∧
      SameKeys s t ∧ t.fkind = s.fkind ∧ t.fpc = s.fpc ∧ t.fop = s.fop ∧ SameInputs s t

/-- FX0A, completion: a press during the wait gives `V[WAITX]` the key's number, moves `PC` on by 2 and resumes, and sets
the key's bit; everything else stays (R173, R212; decisions D20 and D21). -/
def Obligations.KeyPressCompletesWait : Prop :=
  ∀ (k : Key) (rest : List Transition) (s : State), s.pending = .keyDown k :: rest → s.mode = .waitKey →
    s.keys[k.val] = false → s.pc.toNat ≤ 4092 →
    ∃ t, step s = .next t ∧ (t.reg s.waitX).toNat = k.val ∧ t.pc.toNat = s.pc.toNat + 2 ∧ t.mode = .running ∧
      t.keys[k.val] = true ∧ (∀ j : Key, j ≠ k → t.keys[j.val] = s.keys[j.val]) ∧ t.pending = rest ∧
      SameRegsBut [s.waitX] s t ∧ SameMemory s t ∧ SameIndex s t ∧ SameStack s t ∧ SameTimers s t ∧
      SameDisplay s t ∧ t.waitX = s.waitX ∧ t.fkind = s.fkind ∧ t.fpc = s.fpc ∧ t.fop = s.fop ∧
      t.rndIn = s.rndIn ∧ t.draws = s.draws

/-- Key events that end no wait: a key already down is no press and changes nothing; outside `WAITKEY` a press only sets
its bit; a release only clears its bit, in every `MODE` (R212, R213; decision D21). -/
def Obligations.KeyEventsOnlySetLevels : Prop :=
  ∀ (k : Key) (rest : List Transition) (s : State),
    (s.pending = .keyDown k :: rest → s.keys[k.val] = true → step s = .next { s with pending := rest }) ∧
    (s.pending = .keyDown k :: rest → s.keys[k.val] = false → s.mode ≠ .waitKey →
      ∃ t, step s = .next t ∧ t.keys[k.val] = true ∧ (∀ j : Key, j ≠ k → t.keys[j.val] = s.keys[j.val]) ∧
        t = { s with pending := rest, keys := t.keys }) ∧
    (s.pending = .keyUp k :: rest →
      ∃ t, step s = .next t ∧ t.keys[k.val] = false ∧ (∀ j : Key, j ≠ k → t.keys[j.val] = s.keys[j.val]) ∧
        t = { s with pending := rest, keys := t.keys })

/-- The level form: a sample leaves `KEYS` equal to the level vector, and a waiting FX0A takes the lowest-numbered newly
pressed key (R214; decision D21). -/
def Obligations.LevelSampleTakesLowestKey : Prop :=
  ∀ (keyIn : Vector Bool 16) (s : State),
    (sampleKeys keyIn s).keys = keyIn ∧
    (∀ k : Key, s.mode = .waitKey → keyIn[k.val] = true → s.keys[k.val] = false →
      (∀ j : Key, j < k → ¬(keyIn[j.val] = true ∧ s.keys[j.val] = false)) →
      ((sampleKeys keyIn s).reg s.waitX).toNat = k.val ∧ (sampleKeys keyIn s).mode = .running) ∧
    (s.mode = .waitKey → (∀ j : Key, ¬(keyIn[j.val] = true ∧ s.keys[j.val] = false)) →
      sampleKeys keyIn s = { s with keys := keyIn })

/-- FX07, FX15 and FX18 move between a register and a timer, and do nothing else (R174, R175, R176). -/
def Obligations.TimerMoves : Prop :=
  ∀ (x : Reg) (s : State), CanAdvance s →
    decodeWord (encX 0xF007 x) = some (.ldVxDt x) ∧ decodeWord (encX 0xF015 x) = some (.ldDtVx x) ∧
    decodeWord (encX 0xF018 x) = some (.ldStVx x) ∧
    (∃ t, exec (.ldVxDt x) s = .next t ∧ t.reg x = s.dt ∧ t.pc.toNat = s.pc.toNat + 2 ∧ OnlyRegs [x] s t) ∧
    (∃ t, exec (.ldDtVx x) s = .next t ∧ t.dt = s.reg x ∧ t.st = s.st ∧ t.pc.toNat = s.pc.toNat + 2 ∧
      SameRegsBut [] s t ∧ SameMemory s t ∧ SameIndex s t ∧ SameStack s t ∧ SameDisplay s t ∧ SameKeys s t ∧
      SameControl s t ∧ SameInputs s t) ∧
    (∃ t, exec (.ldStVx x) s = .next t ∧ t.st = s.reg x ∧ t.dt = s.dt ∧ t.pc.toNat = s.pc.toNat + 2 ∧
      SameRegsBut [] s t ∧ SameMemory s t ∧ SameIndex s t ∧ SameStack s t ∧ SameDisplay s t ∧ SameKeys s t ∧
      SameControl s t ∧ SameInputs s t)

/-- `Tick` takes 1 from each timer that is not 0, in `RUNNING` and `WAITKEY`, and has no effect in the other modes
(R210; decision D23); so after `n` ticks a timer that stood at `v` stands at `v - n`, or at 0 from then on (the source
property of R210). -/
def Obligations.TimersCountDownToZero : Prop :=
  (∀ (rest : List Transition) (s : State), s.pending = .tick :: rest →
    step s = .next (tick { s with pending := rest })) ∧
  (∀ (n : Nat) (s : State),
    (s.mode = .running ∨ s.mode = .waitKey →
      (ticks n s).dt.toNat = s.dt.toNat - n ∧ (ticks n s).st.toNat = s.st.toNat - n ∧
      ticks n s = { s with dt := (ticks n s).dt, st := (ticks n s).st }) ∧
    (s.mode = .stopped ∨ s.mode = .faulted → ticks n s = s))

/-- A key-wait that no press and no reset ends: the machine waits for ever, with every register, byte and cell as it was,
while the timers run on to 0 and stay there (R172, R210, R219 (c) and (d); decisions D20, D23). The fairness of the
schedule is the spec's only timing assumption and is a hypothesis here. -/
def Obligations.UnansweredWaitOnlyRunsTimersOut : Prop :=
  ∀ (sched : Nat → Transition) (s : State), s.mode = .waitKey →
    (∀ n k, sched n ≠ .keyDown k ∧ sched n ≠ .reset) → FairToTimers sched s →
    (∀ n, (endlessRun sched s n).mode = .waitKey ∧
      endlessRun sched s n =
        { s with
          dt := (endlessRun sched s n).dt, st := (endlessRun sched s n).st, keys := (endlessRun sched s n).keys }) ∧
    ∃ n, ∀ m, n ≤ m → (endlessRun sched s m).dt = 0 ∧ (endlessRun sched s m).st = 0

/-- The outputs the host reads: the display and `ST` as they are, `sound_on` exactly when `ST` is not 0, and the codes of
`MODE` and `FKIND` (R216, R218, R224; the codes are decisions D3 and D4). -/
def Obligations.OutputsTheHostReads : Prop :=
  ∀ s : State, (observe s).disp = s.disp ∧ (observe s).st = s.st ∧ ((observe s).soundOn = true ↔ s.st.toNat ≠ 0) ∧
    (observe s).fpc = s.fpc ∧ (observe s).fop = s.fop ∧
    (s.mode = .stopped → (observe s).mode = 0) ∧ (s.mode = .running → (observe s).mode = 1) ∧
    (s.mode = .waitKey → (observe s).mode = 2) ∧ (s.mode = .faulted → (observe s).mode = 3) ∧
    (s.fkind = none → (observe s).fkind = 0) ∧ (s.fkind = some .invalidOpcode → (observe s).fkind = 1) ∧
    (s.fkind = some .stackOverflow → (observe s).fkind = 2) ∧
    (s.fkind = some .stackUnderflow → (observe s).fkind = 3) ∧
    (s.fkind = some .outOfBoundsAccess → (observe s).fkind = 4)

/-! ### Reset, load, start -/

/-- `Reset`, in every `MODE`: the values of the table of R34, the program erased (R240; `KEYS`, stack slots, `WAITX`, the
fault record and `MODE` are decision D25; that the inputs still to come stay is the model's, log 3). -/
def Obligations.ResetRestoresEverything : Prop :=
  ∀ (rest : List Transition) (s : State), s.pending = .reset :: rest →
    ∃ t, step s = .next t ∧ (∀ r, t.reg r = 0) ∧ t.pc = 0x200 ∧ t.i = 0 ∧ t.sp = 0 ∧
      (∀ k (h : k < 16), t.stack[k] = 0) ∧ t.dt = 0 ∧ t.st = 0 ∧
      (∀ row col, row < 32 → col < 64 → Screen.lit t.disp row col = false) ∧ (∀ k : Key, t.keys[k.val] = false) ∧
      (∀ a, a < 80 → t.readByte a = Config.font a) ∧ (∀ a, 80 ≤ a → a < 4096 → t.readByte a = 0) ∧
      t.mode = .stopped ∧ t.waitX = 0 ∧ t.fkind = none ∧ t.fpc = 0 ∧ t.fop = 0 ∧
      t.pending = rest ∧ t.rndIn = s.rndIn ∧ t.draws = s.draws

/-- `Load`: `Ignored` outside `STOPPED` and `RomTooLarge` above 3584 bytes, both without a change; else `Ok` and the image
stands from 0x200 on, every other byte as before and the font out of reach (R241; decision D26). The step drops the
result (log 10). -/
def Obligations.LoadCopiesImage : Prop :=
  ∀ (rom : List Byte) (rest : List Transition) (s : State), s.mem.wf = true → s.pending = .load rom :: rest →
    step s = .next (loadRom rom { s with pending := rest }).2 ∧
    (s.mode ≠ .stopped → loadRom rom s = (.ignored, s)) ∧
    (s.mode = .stopped → 3584 < rom.length → loadRom rom s = (.romTooLarge, s)) ∧
    (s.mode = .stopped → rom.length ≤ 3584 → ∃ t, loadRom rom s = (.ok, t) ∧
      (∀ k (h : k < rom.length), t.readByte (0x200 + k) = rom[k]) ∧ SameMemoryOutside 0x200 rom.length s t ∧
      t = { s with mem := t.mem })

/-- `Start` takes `STOPPED` to `RUNNING` and has no effect in any other `MODE` (R242; decision D26). -/
def Obligations.StartOnlyFromStopped : Prop :=
  ∀ (rest : List Transition) (s : State), s.pending = .start :: rest →
    (s.mode = .stopped → step s = .next { s with mode := .running, pending := rest }) ∧
    (s.mode ≠ .stopped → step s = .next { s with pending := rest })

/-- Boot: `Reset`, `Load`, `Start` from any state at all leave the machine running at 0x200 with the image's first word to
fetch; with an empty image the first `Exec` enters `InvalidOpcode` on the word 0 (R243, R244; log 11). -/
def Obligations.BootReachesFirstInstruction : Prop :=
  ∀ (rom : List Byte) (s : State), s.pending = [.reset, .load rom, .start] → rom.length ≤ 3584 →
    ∃ t, core.run 3 s = .next t ∧ t.mode = .running ∧ t.pc = 0x200 ∧ t.pending = [] ∧
      (∀ k (h : k < rom.length), t.readByte (0x200 + k) = rom[k]) ∧
      (∀ i rest, decodeBytes rom = .ok (i, rest) → step t = exec i t) ∧
      (rom = [] → step t = .next (faultedWith .invalidOpcode 0 t))

/-! ### Invariants and whole-machine rules -/

/-- The invariants hold after reset (R34, R35). -/
def Obligations.ResetMeetsInvariants : Prop := Inv State.reset

/-- Every step of every agent keeps the invariants: an even `PC` in memory, the font as it was, the fault record exactly
in `FAULTED`, return addresses even and in 2 to 4096, memory in canonical form, and what a key-wait keeps (R31, R32,
R35). -/
def Obligations.StepKeepsInvariants : Prop :=
  ∀ s t : State, Inv s → step s = .next t → Inv t

/-- `MODE` changes only as R30 lists, and nothing leaves `FAULTED` but `Reset` (R203). -/
def Obligations.ModeTransitions : Prop :=
  ∀ s t : State, step s = .next t → t.mode ≠ s.mode →
    (t.mode = .stopped ∧ s.pending.head? = some .reset) ∨
    (s.mode = .stopped ∧ t.mode = .running ∧ s.pending.head? = some .start) ∨
    (s.mode = .running ∧ (t.mode = .waitKey ∨ t.mode = .faulted) ∧
      (s.pending.head? = none ∨ s.pending.head? = some .exec)) ∨
    (s.mode = .waitKey ∧ t.mode = .running ∧ ∃ k, s.pending.head? = some (.keyDown k))

/-- In `FAULTED` no transition but `Reset` changes anything except `KEYS` and the schedule (R203). -/
def Obligations.FaultedStateIsFrozen : Prop :=
  ∀ (tr : Transition) (rest : List Transition) (s t : State), s.mode = .faulted → s.pending = tr :: rest →
    tr ≠ .reset → step s = .next t → t = { s with pending := rest, keys := t.keys }

/-- Stack slots at `SP` and above cannot be observed (R24, R36): two states that differ only there take the same step,
to states that differ only there. -/
def Obligations.StaleStackSlotsUnobservable : Prop :=
  ∀ (i : Instr) (s : State) (stk : Vector Word 16),
    (∀ k (h : k < 16), k < s.sp.val → stk[k] = s.stack[k]) →
    ∃ t u, exec i s = .next t ∧ exec i { s with stack := stk } = .next u ∧ u = { t with stack := u.stack } ∧
      (∀ k (h : k < 16), k < t.sp.val → u.stack[k] = t.stack[k])

/-- A settled state stays: `Exec` changes nothing, and a `Tick` leaves it settled (R254 (c); decision D30). -/
def Obligations.SettledStateStays : Prop :=
  ∀ s : State, Settled s →
    (s.pending = [] → step s = .next s) ∧ Settled (tick s)
end

