-- ==== Sys2Proof/Laws/Memory.lean ====
section
/-!
SUPPORT. The laws of memory: a read after a write, the canonical form kept by every operation, and the cases of the
two checked accesses (spec/20_memory.md R54, R55; 42_index_memory.md R146).
-/
namespace Sys2Proof.Machine

@[simp] theorem Memory.read_nil (a : Nat) : Memory.read [] a = Memory.background a := rfl

/-- Putting a cell in front, whether or not it is redundant, makes `a` read as `v`; other addresses read as before. -/
theorem Memory.read_cons (a : Nat) (v : Byte) (m : Memory) (c : Nat)
    (hm : c = a → v = Memory.background a → Memory.read m a = v) :
    Memory.read (Memory.cons a v m) c = if c = a then v else Memory.read m c := by
  unfold Memory.cons
  by_cases hv : v = Memory.background a
  · rw [if_pos hv]
    by_cases hc : c = a
    · rw [if_pos hc, hc]; exact hm hc hv
    · rw [if_neg hc]
  · rw [if_neg hv]; rfl

/-- Addresses below a well-formed list's start are not listed. -/
theorem Memory.read_below {m : Memory} : ∀ {lo c : Nat}, Memory.wfFrom lo m = true → c < lo →
    Memory.read m c = Memory.background c := by
  induction m with
  | nil => intros; rfl
  | cons p m ih =>
    intro lo c h hc
    obtain ⟨a, w⟩ := p
    simp only [Memory.wfFrom, Bool.and_eq_true, decide_eq_true_eq] at h
    rw [Memory.read, if_neg (by omega)]
    exact ih h.2 (by omega)

/-- The start of the canonical form may be lowered. -/
theorem Memory.wfFrom_mono {m : Memory} {lo lo' : Nat} (h : Memory.wfFrom lo m = true) (hl : lo' ≤ lo) :
    Memory.wfFrom lo' m = true := by
  cases m with
  | nil => rfl
  | cons p m =>
    obtain ⟨a, w⟩ := p
    simp only [Memory.wfFrom, Bool.and_eq_true, decide_eq_true_eq] at h ⊢
    exact ⟨⟨⟨by omega, h.1.1.2⟩, h.1.2⟩, h.2⟩

/-- Putting a cell in front keeps the canonical form. -/
theorem Memory.wfFrom_cons {m : Memory} {lo a : Nat} {v : Byte} (h : Memory.wfFrom (a + 1) m = true) (hl : lo ≤ a)
    (ha : a < 4096) : Memory.wfFrom lo (Memory.cons a v m) = true := by
  unfold Memory.cons
  split
  · exact Memory.wfFrom_mono h (by omega)
  · next hv => simp [Memory.wfFrom, hl, ha, hv, h]

/-- A write keeps the canonical form. -/
theorem Memory.wfFrom_write {a : Nat} {v : Byte} (ha : a < 4096) : ∀ {m : Memory} {lo : Nat},
    Memory.wfFrom lo m = true → lo ≤ a → Memory.wfFrom lo (Memory.write m a v) = true := by
  intro m
  induction m with
  | nil => intro lo _ hl; exact Memory.wfFrom_cons rfl hl ha
  | cons p m ih =>
    intro lo h hl
    obtain ⟨b, w⟩ := p
    have hw := h
    simp only [Memory.wfFrom, Bool.and_eq_true, decide_eq_true_eq] at h
    simp only [Memory.write]
    split
    · next hab =>
      refine Memory.wfFrom_cons ?_ hl ha
      simp [Memory.wfFrom, h]; omega
    · split
      · next hab => subst hab; exact Memory.wfFrom_cons h.2 hl ha
      · have := ih (lo := b + 1) h.2 (by omega)
        simp [Memory.wfFrom, h, this]

theorem Memory.wf_write {m : Memory} {a : Nat} {v : Byte} (h : m.wf = true) (ha : a < 4096) :
    (m.write a v).wf = true := Memory.wfFrom_write ha h (Nat.zero_le a)

/-- A read after a write, on a canonical list. -/
theorem Memory.read_write_from {a : Nat} {v : Byte} (c : Nat) : ∀ {m : Memory} {lo : Nat},
    Memory.wfFrom lo m = true → Memory.read (Memory.write m a v) c = if c = a then v else Memory.read m c := by
  intro m
  induction m with
  | nil => intro lo _; exact Memory.read_cons a v [] c fun _ hv => hv.symm
  | cons p m ih =>
    intro lo h
    obtain ⟨b, w⟩ := p
    have hw := h
    simp only [Memory.wfFrom, Bool.and_eq_true, decide_eq_true_eq] at h
    simp only [Memory.write]
    split
    · next hab =>
      refine Memory.read_cons a v _ c fun _ hv => ?_
      rw [Memory.read, if_neg (by omega), Memory.read_below h.2 (by omega)]; exact hv.symm
    · split
      · next hab =>
        subst hab
        rw [Memory.read_cons a v m c fun _ hv => by rw [Memory.read_below h.2 (by omega)]; exact hv.symm]
        by_cases hc : c = a <;> simp [Memory.read, hc]
      · next h1 h2 =>
        rw [Memory.read, ih h.2]
        by_cases hb : c = b
        · have : c ≠ a := by omega
          simp [hb, Memory.read]; omega
        · simp [hb, Memory.read]

/-- A read after a write. -/
theorem Memory.read_write {m : Memory} (h : m.wf = true) (a : Nat) (v : Byte) (c : Nat) :
    (m.write a v).read c = if c = a then v else m.read c := Memory.read_write_from c h

/-- Storing bytes keeps the canonical form. -/
theorem Memory.wf_writeBytes (bs : List Byte) : ∀ {m : Memory} {a : Nat}, m.wf = true → a + bs.length ≤ 4096 →
    (m.writeBytes a bs).wf = true := by
  induction bs with
  | nil => intro m a h _; exact h
  | cons b bs ih =>
    intro m a h hl
    simp only [List.length_cons] at hl
    exact ih (Memory.wf_write h (by omega)) (by omega)

/-- A read after storing bytes: the stored byte inside the range, the old byte outside. -/
theorem Memory.read_writeBytes (bs : List Byte) : ∀ {m : Memory} {a : Nat} (c : Nat), m.wf = true →
    a + bs.length ≤ 4096 →
    (m.writeBytes a bs).read c = if a ≤ c then (bs[c - a]?).getD (m.read c) else m.read c := by
  induction bs with
  | nil => intro m a c _ _; simp [Memory.writeBytes]
  | cons b bs ih =>
    intro m a c h hl
    simp only [List.length_cons] at hl
    rw [Memory.writeBytes, ih c (Memory.wf_write h (by omega)) (by omega), Memory.read_write h]
    rcases Nat.lt_trichotomy a c with hc | hc | hc
    · have e : c - a = (c - (a + 1)) + 1 := by omega
      rw [if_pos (by omega), if_neg (by omega), if_pos (by omega), e, List.getElem?_cons_succ]
    · rw [if_neg (by omega), if_pos hc.symm, if_pos (by omega), hc]; simp
    · rw [if_neg (by omega), if_neg (by omega), if_neg (by omega)]

/-! ### The checked accesses -/

/-- The two cases of a checked read. -/
theorem memRead_cases (s : State) (a n : Nat) :
    (memRead s a n = .error .outOfBoundsAccess ∧ 1 ≤ n ∧ 4095 < a + n - 1) ∨
    (memRead s a n = .ok ((List.range n).map fun k => s.readByte (a + k)) ∧ (n = 0 ∨ a + n ≤ 4096)) := by
  unfold memRead
  split
  · next h => exact .inl ⟨rfl, h⟩
  · next h => exact .inr ⟨rfl, by omega⟩

/-- The two cases of a checked write. -/
theorem memWrite_cases (s : State) (a : Nat) (bs : List Byte) :
    (memWrite s a bs = .error .outOfBoundsAccess ∧ (4095 < a + bs.length - 1 ∨ a < 80)) ∨
    (memWrite s a bs = .ok { s with mem := s.mem.writeBytes a bs } ∧ 80 ≤ a ∧ a + bs.length ≤ 4096) := by
  unfold memWrite
  split
  · next h => exact .inl ⟨rfl, h⟩
  · next h => exact .inr ⟨rfl, by omega⟩

theorem State.reset_mem_wf : State.reset.mem.wf = true := rfl

end Sys2Proof.Machine
end

