-- ==== Sys2Proof/Laws/State.lean ====
section
/-!
SUPPORT. One lemma per field per update of the state, each true by `rfl`, so that no proof unfolds a record update;
and what a register read and a byte read see of each update.
-/
namespace Sys2Proof.Machine

/-! ### `State.setReg` -/

@[simp] theorem State.setReg_v (s : State) (r : Reg) (b : Byte) : (s.setReg r b).v = s.v.set r.val b r.isLt := rfl
@[simp] theorem State.setReg_pc (s : State) (r : Reg) (b : Byte) : (s.setReg r b).pc = s.pc := rfl
@[simp] theorem State.setReg_i (s : State) (r : Reg) (b : Byte) : (s.setReg r b).i = s.i := rfl
@[simp] theorem State.setReg_sp (s : State) (r : Reg) (b : Byte) : (s.setReg r b).sp = s.sp := rfl
@[simp] theorem State.setReg_stack (s : State) (r : Reg) (b : Byte) : (s.setReg r b).stack = s.stack := rfl
@[simp] theorem State.setReg_dt (s : State) (r : Reg) (b : Byte) : (s.setReg r b).dt = s.dt := rfl
@[simp] theorem State.setReg_st (s : State) (r : Reg) (b : Byte) : (s.setReg r b).st = s.st := rfl
@[simp] theorem State.setReg_disp (s : State) (r : Reg) (b : Byte) : (s.setReg r b).disp = s.disp := rfl
@[simp] theorem State.setReg_keys (s : State) (r : Reg) (b : Byte) : (s.setReg r b).keys = s.keys := rfl
@[simp] theorem State.setReg_mem (s : State) (r : Reg) (b : Byte) : (s.setReg r b).mem = s.mem := rfl
@[simp] theorem State.setReg_mode (s : State) (r : Reg) (b : Byte) : (s.setReg r b).mode = s.mode := rfl
@[simp] theorem State.setReg_waitX (s : State) (r : Reg) (b : Byte) : (s.setReg r b).waitX = s.waitX := rfl
@[simp] theorem State.setReg_fkind (s : State) (r : Reg) (b : Byte) : (s.setReg r b).fkind = s.fkind := rfl
@[simp] theorem State.setReg_fpc (s : State) (r : Reg) (b : Byte) : (s.setReg r b).fpc = s.fpc := rfl
@[simp] theorem State.setReg_fop (s : State) (r : Reg) (b : Byte) : (s.setReg r b).fop = s.fop := rfl
@[simp] theorem State.setReg_pending (s : State) (r : Reg) (b : Byte) : (s.setReg r b).pending = s.pending := rfl
@[simp] theorem State.setReg_rndIn (s : State) (r : Reg) (b : Byte) : (s.setReg r b).rndIn = s.rndIn := rfl
@[simp] theorem State.setReg_draws (s : State) (r : Reg) (b : Byte) : (s.setReg r b).draws = s.draws := rfl
@[simp] theorem State.setReg_readByte (s : State) (r : Reg) (b : Byte) (a : Nat) : (s.setReg r b).readByte a = s.readByte a := rfl

/-! ### `State.setPc` -/

@[simp] theorem State.setPc_v (s : State) (npc : Nat) : (s.setPc npc).v = s.v := rfl
@[simp] theorem State.setPc_pc (s : State) (npc : Nat) : (s.setPc npc).pc = BitVec.ofNat 16 npc := rfl
@[simp] theorem State.setPc_i (s : State) (npc : Nat) : (s.setPc npc).i = s.i := rfl
@[simp] theorem State.setPc_sp (s : State) (npc : Nat) : (s.setPc npc).sp = s.sp := rfl
@[simp] theorem State.setPc_stack (s : State) (npc : Nat) : (s.setPc npc).stack = s.stack := rfl
@[simp] theorem State.setPc_dt (s : State) (npc : Nat) : (s.setPc npc).dt = s.dt := rfl
@[simp] theorem State.setPc_st (s : State) (npc : Nat) : (s.setPc npc).st = s.st := rfl
@[simp] theorem State.setPc_disp (s : State) (npc : Nat) : (s.setPc npc).disp = s.disp := rfl
@[simp] theorem State.setPc_keys (s : State) (npc : Nat) : (s.setPc npc).keys = s.keys := rfl
@[simp] theorem State.setPc_mem (s : State) (npc : Nat) : (s.setPc npc).mem = s.mem := rfl
@[simp] theorem State.setPc_mode (s : State) (npc : Nat) : (s.setPc npc).mode = s.mode := rfl
@[simp] theorem State.setPc_waitX (s : State) (npc : Nat) : (s.setPc npc).waitX = s.waitX := rfl
@[simp] theorem State.setPc_fkind (s : State) (npc : Nat) : (s.setPc npc).fkind = s.fkind := rfl
@[simp] theorem State.setPc_fpc (s : State) (npc : Nat) : (s.setPc npc).fpc = s.fpc := rfl
@[simp] theorem State.setPc_fop (s : State) (npc : Nat) : (s.setPc npc).fop = s.fop := rfl
@[simp] theorem State.setPc_pending (s : State) (npc : Nat) : (s.setPc npc).pending = s.pending := rfl
@[simp] theorem State.setPc_rndIn (s : State) (npc : Nat) : (s.setPc npc).rndIn = s.rndIn := rfl
@[simp] theorem State.setPc_draws (s : State) (npc : Nat) : (s.setPc npc).draws = s.draws := rfl
@[simp] theorem State.setPc_reg (s : State) (npc : Nat) (q : Reg) : (s.setPc npc).reg q = s.reg q := rfl
@[simp] theorem State.setPc_readByte (s : State) (npc : Nat) (a : Nat) : (s.setPc npc).readByte a = s.readByte a := rfl

/-! ### `State.setI` -/

@[simp] theorem State.setI_v (s : State) (w : Word) : (s.setI w).v = s.v := rfl
@[simp] theorem State.setI_pc (s : State) (w : Word) : (s.setI w).pc = s.pc := rfl
@[simp] theorem State.setI_i (s : State) (w : Word) : (s.setI w).i = w := rfl
@[simp] theorem State.setI_sp (s : State) (w : Word) : (s.setI w).sp = s.sp := rfl
@[simp] theorem State.setI_stack (s : State) (w : Word) : (s.setI w).stack = s.stack := rfl
@[simp] theorem State.setI_dt (s : State) (w : Word) : (s.setI w).dt = s.dt := rfl
@[simp] theorem State.setI_st (s : State) (w : Word) : (s.setI w).st = s.st := rfl
@[simp] theorem State.setI_disp (s : State) (w : Word) : (s.setI w).disp = s.disp := rfl
@[simp] theorem State.setI_keys (s : State) (w : Word) : (s.setI w).keys = s.keys := rfl
@[simp] theorem State.setI_mem (s : State) (w : Word) : (s.setI w).mem = s.mem := rfl
@[simp] theorem State.setI_mode (s : State) (w : Word) : (s.setI w).mode = s.mode := rfl
@[simp] theorem State.setI_waitX (s : State) (w : Word) : (s.setI w).waitX = s.waitX := rfl
@[simp] theorem State.setI_fkind (s : State) (w : Word) : (s.setI w).fkind = s.fkind := rfl
@[simp] theorem State.setI_fpc (s : State) (w : Word) : (s.setI w).fpc = s.fpc := rfl
@[simp] theorem State.setI_fop (s : State) (w : Word) : (s.setI w).fop = s.fop := rfl
@[simp] theorem State.setI_pending (s : State) (w : Word) : (s.setI w).pending = s.pending := rfl
@[simp] theorem State.setI_rndIn (s : State) (w : Word) : (s.setI w).rndIn = s.rndIn := rfl
@[simp] theorem State.setI_draws (s : State) (w : Word) : (s.setI w).draws = s.draws := rfl
@[simp] theorem State.setI_reg (s : State) (w : Word) (q : Reg) : (s.setI w).reg q = s.reg q := rfl
@[simp] theorem State.setI_readByte (s : State) (w : Word) (a : Nat) : (s.setI w).readByte a = s.readByte a := rfl

/-! ### `State.setDt` -/

@[simp] theorem State.setDt_v (s : State) (b : Byte) : (s.setDt b).v = s.v := rfl
@[simp] theorem State.setDt_pc (s : State) (b : Byte) : (s.setDt b).pc = s.pc := rfl
@[simp] theorem State.setDt_i (s : State) (b : Byte) : (s.setDt b).i = s.i := rfl
@[simp] theorem State.setDt_sp (s : State) (b : Byte) : (s.setDt b).sp = s.sp := rfl
@[simp] theorem State.setDt_stack (s : State) (b : Byte) : (s.setDt b).stack = s.stack := rfl
@[simp] theorem State.setDt_dt (s : State) (b : Byte) : (s.setDt b).dt = b := rfl
@[simp] theorem State.setDt_st (s : State) (b : Byte) : (s.setDt b).st = s.st := rfl
@[simp] theorem State.setDt_disp (s : State) (b : Byte) : (s.setDt b).disp = s.disp := rfl
@[simp] theorem State.setDt_keys (s : State) (b : Byte) : (s.setDt b).keys = s.keys := rfl
@[simp] theorem State.setDt_mem (s : State) (b : Byte) : (s.setDt b).mem = s.mem := rfl
@[simp] theorem State.setDt_mode (s : State) (b : Byte) : (s.setDt b).mode = s.mode := rfl
@[simp] theorem State.setDt_waitX (s : State) (b : Byte) : (s.setDt b).waitX = s.waitX := rfl
@[simp] theorem State.setDt_fkind (s : State) (b : Byte) : (s.setDt b).fkind = s.fkind := rfl
@[simp] theorem State.setDt_fpc (s : State) (b : Byte) : (s.setDt b).fpc = s.fpc := rfl
@[simp] theorem State.setDt_fop (s : State) (b : Byte) : (s.setDt b).fop = s.fop := rfl
@[simp] theorem State.setDt_pending (s : State) (b : Byte) : (s.setDt b).pending = s.pending := rfl
@[simp] theorem State.setDt_rndIn (s : State) (b : Byte) : (s.setDt b).rndIn = s.rndIn := rfl
@[simp] theorem State.setDt_draws (s : State) (b : Byte) : (s.setDt b).draws = s.draws := rfl
@[simp] theorem State.setDt_reg (s : State) (b : Byte) (q : Reg) : (s.setDt b).reg q = s.reg q := rfl
@[simp] theorem State.setDt_readByte (s : State) (b : Byte) (a : Nat) : (s.setDt b).readByte a = s.readByte a := rfl

/-! ### `State.setSt` -/

@[simp] theorem State.setSt_v (s : State) (b : Byte) : (s.setSt b).v = s.v := rfl
@[simp] theorem State.setSt_pc (s : State) (b : Byte) : (s.setSt b).pc = s.pc := rfl
@[simp] theorem State.setSt_i (s : State) (b : Byte) : (s.setSt b).i = s.i := rfl
@[simp] theorem State.setSt_sp (s : State) (b : Byte) : (s.setSt b).sp = s.sp := rfl
@[simp] theorem State.setSt_stack (s : State) (b : Byte) : (s.setSt b).stack = s.stack := rfl
@[simp] theorem State.setSt_dt (s : State) (b : Byte) : (s.setSt b).dt = s.dt := rfl
@[simp] theorem State.setSt_st (s : State) (b : Byte) : (s.setSt b).st = b := rfl
@[simp] theorem State.setSt_disp (s : State) (b : Byte) : (s.setSt b).disp = s.disp := rfl
@[simp] theorem State.setSt_keys (s : State) (b : Byte) : (s.setSt b).keys = s.keys := rfl
@[simp] theorem State.setSt_mem (s : State) (b : Byte) : (s.setSt b).mem = s.mem := rfl
@[simp] theorem State.setSt_mode (s : State) (b : Byte) : (s.setSt b).mode = s.mode := rfl
@[simp] theorem State.setSt_waitX (s : State) (b : Byte) : (s.setSt b).waitX = s.waitX := rfl
@[simp] theorem State.setSt_fkind (s : State) (b : Byte) : (s.setSt b).fkind = s.fkind := rfl
@[simp] theorem State.setSt_fpc (s : State) (b : Byte) : (s.setSt b).fpc = s.fpc := rfl
@[simp] theorem State.setSt_fop (s : State) (b : Byte) : (s.setSt b).fop = s.fop := rfl
@[simp] theorem State.setSt_pending (s : State) (b : Byte) : (s.setSt b).pending = s.pending := rfl
@[simp] theorem State.setSt_rndIn (s : State) (b : Byte) : (s.setSt b).rndIn = s.rndIn := rfl
@[simp] theorem State.setSt_draws (s : State) (b : Byte) : (s.setSt b).draws = s.draws := rfl
@[simp] theorem State.setSt_reg (s : State) (b : Byte) (q : Reg) : (s.setSt b).reg q = s.reg q := rfl
@[simp] theorem State.setSt_readByte (s : State) (b : Byte) (a : Nat) : (s.setSt b).readByte a = s.readByte a := rfl

/-! ### `State.drawn` -/

@[simp] theorem State.drawn_v (s : State) : s.drawn.v = s.v := rfl
@[simp] theorem State.drawn_pc (s : State) : s.drawn.pc = s.pc := rfl
@[simp] theorem State.drawn_i (s : State) : s.drawn.i = s.i := rfl
@[simp] theorem State.drawn_sp (s : State) : s.drawn.sp = s.sp := rfl
@[simp] theorem State.drawn_stack (s : State) : s.drawn.stack = s.stack := rfl
@[simp] theorem State.drawn_dt (s : State) : s.drawn.dt = s.dt := rfl
@[simp] theorem State.drawn_st (s : State) : s.drawn.st = s.st := rfl
@[simp] theorem State.drawn_disp (s : State) : s.drawn.disp = s.disp := rfl
@[simp] theorem State.drawn_keys (s : State) : s.drawn.keys = s.keys := rfl
@[simp] theorem State.drawn_mem (s : State) : s.drawn.mem = s.mem := rfl
@[simp] theorem State.drawn_mode (s : State) : s.drawn.mode = s.mode := rfl
@[simp] theorem State.drawn_waitX (s : State) : s.drawn.waitX = s.waitX := rfl
@[simp] theorem State.drawn_fkind (s : State) : s.drawn.fkind = s.fkind := rfl
@[simp] theorem State.drawn_fpc (s : State) : s.drawn.fpc = s.fpc := rfl
@[simp] theorem State.drawn_fop (s : State) : s.drawn.fop = s.fop := rfl
@[simp] theorem State.drawn_pending (s : State) : s.drawn.pending = s.pending := rfl
@[simp] theorem State.drawn_rndIn (s : State) : s.drawn.rndIn = s.rndIn.tail := rfl
@[simp] theorem State.drawn_draws (s : State) : s.drawn.draws = s.draws + 1 := rfl
@[simp] theorem State.drawn_reg (s : State) (q : Reg) : s.drawn.reg q = s.reg q := rfl
@[simp] theorem State.drawn_readByte (s : State) (a : Nat) : s.drawn.readByte a = s.readByte a := rfl

/-! ### `takeFault` -/

@[simp] theorem takeFault_v (k : FaultKind) (op : Word) (s : State) : (takeFault k op s).v = s.v := rfl
@[simp] theorem takeFault_pc (k : FaultKind) (op : Word) (s : State) : (takeFault k op s).pc = s.pc := rfl
@[simp] theorem takeFault_i (k : FaultKind) (op : Word) (s : State) : (takeFault k op s).i = s.i := rfl
@[simp] theorem takeFault_sp (k : FaultKind) (op : Word) (s : State) : (takeFault k op s).sp = s.sp := rfl
@[simp] theorem takeFault_stack (k : FaultKind) (op : Word) (s : State) : (takeFault k op s).stack = s.stack := rfl
@[simp] theorem takeFault_dt (k : FaultKind) (op : Word) (s : State) : (takeFault k op s).dt = s.dt := rfl
@[simp] theorem takeFault_st (k : FaultKind) (op : Word) (s : State) : (takeFault k op s).st = s.st := rfl
@[simp] theorem takeFault_disp (k : FaultKind) (op : Word) (s : State) : (takeFault k op s).disp = s.disp := rfl
@[simp] theorem takeFault_keys (k : FaultKind) (op : Word) (s : State) : (takeFault k op s).keys = s.keys := rfl
@[simp] theorem takeFault_mem (k : FaultKind) (op : Word) (s : State) : (takeFault k op s).mem = s.mem := rfl
@[simp] theorem takeFault_mode (k : FaultKind) (op : Word) (s : State) : (takeFault k op s).mode = .faulted := rfl
@[simp] theorem takeFault_waitX (k : FaultKind) (op : Word) (s : State) : (takeFault k op s).waitX = s.waitX := rfl
@[simp] theorem takeFault_fkind (k : FaultKind) (op : Word) (s : State) : (takeFault k op s).fkind = some k := rfl
@[simp] theorem takeFault_fpc (k : FaultKind) (op : Word) (s : State) : (takeFault k op s).fpc = s.pc := rfl
@[simp] theorem takeFault_fop (k : FaultKind) (op : Word) (s : State) : (takeFault k op s).fop = op := rfl
@[simp] theorem takeFault_pending (k : FaultKind) (op : Word) (s : State) : (takeFault k op s).pending = s.pending := rfl
@[simp] theorem takeFault_rndIn (k : FaultKind) (op : Word) (s : State) : (takeFault k op s).rndIn = s.rndIn := rfl
@[simp] theorem takeFault_draws (k : FaultKind) (op : Word) (s : State) : (takeFault k op s).draws = s.draws := rfl
@[simp] theorem takeFault_reg (k : FaultKind) (op : Word) (s : State) (q : Reg) : (takeFault k op s).reg q = s.reg q := rfl
@[simp] theorem takeFault_readByte (k : FaultKind) (op : Word) (s : State) (a : Nat) : (takeFault k op s).readByte a = s.readByte a := rfl

/-! ### Registers -/

/-- A register read after a register write. -/
@[simp] theorem State.setReg_reg (s : State) (r : Reg) (b : Byte) (q : Reg) :
    (s.setReg r b).reg q = if q = r then b else s.reg q := by
  by_cases h : q = r
  · subst h; simp [State.reg]
  · have hv : r.val ≠ q.val := fun e => h (Fin.ext e.symm)
    simp [State.reg, h, Vector.getElem_set_ne, hv]

@[simp] theorem State.setRegThenFlag_eq (s : State) (x : Reg) (r f : Byte) :
    s.setRegThenFlag x r f = (s.setReg x r).setReg VF f := rfl

@[simp] theorem State.setFlagThenReg_eq (s : State) (x : Reg) (r f : Byte) :
    s.setFlagThenReg x r f = (s.setReg VF f).setReg x r := rfl

/-- Writing a group of registers changes `V` only. -/
theorem State.setRegs_frame (bs : List Byte) : ∀ (s : State) (k : Nat), s.setRegs k bs = { s with v := (s.setRegs k bs).v } := by
  induction bs with
  | nil => intro s k; rfl
  | cons b bs ih =>
    intro s k
    rw [State.setRegs, ih]
    split <;> rfl

/-- A register read after writing a group: the group's byte inside it, the old value outside. -/
theorem State.setRegs_reg (bs : List Byte) : ∀ (s : State) (k : Nat) (q : Reg),
    (s.setRegs k bs).reg q = if k ≤ q.val then (bs[q.val - k]?).getD (s.reg q) else s.reg q := by
  induction bs with
  | nil => intro s k q; simp [State.setRegs]
  | cons b bs ih =>
    intro s k q
    rw [State.setRegs, ih]
    have hq := q.isLt
    by_cases hk : k < 16
    · simp only [dif_pos hk, State.setReg_reg]
      rcases Nat.lt_trichotomy k q.val with h | h | h
      · have e : q.val - k = (q.val - (k + 1)) + 1 := by omega
        have ne : q ≠ ⟨k, hk⟩ := fun c => by simp [c] at h
        rw [if_neg ne, if_pos (show k + 1 ≤ q.val by omega), if_pos (show k ≤ q.val by omega), e, List.getElem?_cons_succ]
      · have e : q = ⟨k, hk⟩ := Fin.ext h.symm
        rw [if_pos e, if_neg (show ¬ k + 1 ≤ q.val by omega), if_pos (show k ≤ q.val by omega), ← h]
        simp
      · have ne : q ≠ ⟨k, hk⟩ := fun c => by simp [c] at h
        rw [if_neg ne, if_neg (show ¬ k + 1 ≤ q.val by omega), if_neg (show ¬ k ≤ q.val by omega)]
    · simp only [dif_neg hk]
      rw [if_neg (show ¬ k + 1 ≤ q.val by omega), if_neg (show ¬ k ≤ q.val by omega)]

/-- Two states whose registers read alike hold the same register file. -/
theorem State.v_ext {s t : State} (h : ∀ q : Reg, t.reg q = s.reg q) : t.v = s.v :=
  Vector.ext fun k hk => h ⟨k, hk⟩

end Sys2Proof.Machine
end

