-- ==== Sys2Proof/Laws/Ops.lean ====
section
/-!
SUPPORT. One lemma per shared operation that says everything it can answer: the next-PC check, the two commits, the call
stack, key levels, the fetch, and one step.
-/
namespace Sys2Proof.Machine

/-- The next-PC check in numbers (spec/40_control_flow.md R102). -/
@[simp] theorem nextPcOk_iff (npc : Nat) : nextPcOk npc = true ↔ npc ≤ 4095 ∧ npc % 2 = 0 := by
  simp [nextPcOk]

theorem commit_error (ins : Instr) (s : State) (k : FaultKind) :
    commit ins s (.error k) = .next (takeFault k (encode ins) s) := rfl

theorem commit_ok {npc : Nat} (ins : Instr) (s w : State) (h : npc ≤ 4095 ∧ npc % 2 = 0) :
    commit ins s (.ok (w, npc)) = .next (w.setPc npc) := if_pos ((nextPcOk_iff npc).2 h)

theorem commit_bad {npc : Nat} (ins : Instr) (s w : State) (h : ¬(npc ≤ 4095 ∧ npc % 2 = 0)) :
    commit ins s (.ok (w, npc)) = .next (takeFault .outOfBoundsAccess (encode ins) s) :=
  if_neg fun c => h ((nextPcOk_iff npc).1 c)

/-- Everything a commit can answer. -/
theorem commit_cases (ins : Instr) (s : State) (e : Effect) :
    (∃ w npc, e = .ok (w, npc) ∧ (npc ≤ 4095 ∧ npc % 2 = 0) ∧ commit ins s e = .next (w.setPc npc)) ∨
    (∃ k, commit ins s e = .next (takeFault k (encode ins) s)) := by
  rcases e with k | ⟨w, npc⟩
  · exact .inr ⟨k, rfl⟩
  · by_cases h : npc ≤ 4095 ∧ npc % 2 = 0
    · exact .inl ⟨w, npc, rfl, h, commit_ok ins s w h⟩
    · exact .inr ⟨_, commit_bad ins s w h⟩

theorem commitHeld_ok {npc : Nat} (ins : Instr) (s w : State) (h : npc ≤ 4095 ∧ npc % 2 = 0) :
    commitHeld ins s (.ok (w, npc)) = .next w := if_pos ((nextPcOk_iff npc).2 h)

theorem commitHeld_bad {npc : Nat} (ins : Instr) (s w : State) (h : ¬(npc ≤ 4095 ∧ npc % 2 = 0)) :
    commitHeld ins s (.ok (w, npc)) = .next (takeFault .outOfBoundsAccess (encode ins) s) :=
  if_neg fun c => h ((nextPcOk_iff npc).1 c)

/-- Everything the held commit can answer. -/
theorem commitHeld_cases (ins : Instr) (s : State) (e : Effect) :
    (∃ w npc, e = .ok (w, npc) ∧ (npc ≤ 4095 ∧ npc % 2 = 0) ∧ commitHeld ins s e = .next w) ∨
    (∃ k, commitHeld ins s e = .next (takeFault k (encode ins) s)) := by
  rcases e with k | ⟨w, npc⟩
  · exact .inr ⟨k, rfl⟩
  · by_cases h : npc ≤ 4095 ∧ npc % 2 = 0
    · exact .inl ⟨w, npc, rfl, h, commitHeld_ok ins s w h⟩
    · exact .inr ⟨_, commitHeld_bad ins s w h⟩

/-- A commit of an instruction that goes on to `PC + 2`, from a `PC` that can advance. -/
theorem commit_advance {s : State} (ins : Instr) (w : State) (h : s.pc.toNat % 2 = 0 ∧ s.pc.toNat ≤ 4092) :
    commit ins s (advance s w) = .next (w.setPc (s.pc.toNat + 2)) :=
  commit_ok ins s w (npc := s.pc.toNat + 2) ⟨by omega, by omega⟩

/-- The two cases of a push (R104). -/
theorem push_cases (s : State) (w : Word) :
    (push s w = .error .stackOverflow ∧ s.sp.val = 16) ∨
    (∃ h : s.sp.val < 16,
      push s w = .ok { s with stack := s.stack.set s.sp.val w h, sp := ⟨s.sp.val + 1, Nat.succ_lt_succ h⟩ }) := by
  unfold push
  split
  · next h => exact .inr ⟨h, rfl⟩
  · next h => exact .inl ⟨rfl, by have := s.sp.isLt; omega⟩

/-- The two cases of a pop (R105). -/
theorem pop_cases (s : State) :
    (pop s = .error .stackUnderflow ∧ s.sp.val = 0) ∨
    (∃ h : s.sp.val - 1 < 16, s.sp.val ≠ 0 ∧
      pop s = .ok (s.stack[s.sp.val - 1], { s with sp := ⟨s.sp.val - 1, by omega⟩ })) := by
  unfold pop
  split
  · next h => exact .inl ⟨rfl, h⟩
  · next h => exact .inr ⟨by have := s.sp.isLt; omega, h, rfl⟩

/-- The two cases of reading a key level by register (44_keypad_timer.md R170). -/
theorem keyLevel_cases (s : State) (x : Reg) :
    (keyLevel s x = .error .outOfBoundsAccess ∧ 15 < (s.reg x).toNat) ∨
    (∃ h : (s.reg x).toNat < 16, keyLevel s x = .ok s.keys[(s.reg x).toNat]) := by
  unfold keyLevel
  split
  · next h => exact .inr ⟨h, rfl⟩
  · next h => exact .inl ⟨rfl, by omega⟩

/-- The two cases of a fetch (20_memory.md R56). -/
theorem fetch_cases (s : State) :
    (fetch s = .error .outOfBoundsAccess ∧ (s.pc.toNat % 2 = 1 ∨ 4094 < s.pc.toNat)) ∨
    (fetch s = .ok (wordAt s s.pc.toNat) ∧ s.pc.toNat % 2 = 0 ∧ s.pc.toNat ≤ 4094) := by
  unfold fetch
  split
  · next h => exact .inl ⟨rfl, h⟩
  · next h => exact .inr ⟨rfl, by omega, by omega⟩

/-- Everything an instruction's run can answer (40_control_flow.md R100). -/
theorem runInstruction_cases (s : State) :
    (runInstruction s = .next (takeFault .outOfBoundsAccess 0 s)) ∨
    (runInstruction s = .next (takeFault .invalidOpcode (wordAt s s.pc.toNat) s)) ∨
    (∃ ins, decodeWord (wordAt s s.pc.toNat) = some ins ∧ s.pc.toNat % 2 = 0 ∧ s.pc.toNat ≤ 4094 ∧
      runInstruction s = exec ins s) := by
  unfold runInstruction
  rcases fetch_cases s with ⟨h, _⟩ | ⟨h, he, hl⟩
  · exact .inl (by rw [h])
  · rw [h]
    cases hd : decodeWord (wordAt s s.pc.toNat) with
    | none => exact .inr (.inl (by simp only [hd]))
    | some ins => exact .inr (.inr ⟨ins, rfl, he, hl, by simp only [hd]⟩)

/-- A step performs the scheduled transition, or `Exec` when none is scheduled. -/
theorem step_scheduled {s : State} {t : Transition} {rest : List Transition} (h : s.pending = t :: rest) :
    step s = perform t { s with pending := rest } := by
  simp [step, nextTransition, h]

theorem step_unscheduled {s : State} (h : s.pending = []) : step s = execTransition s := by
  simp [step, nextTransition, h, perform]

end Sys2Proof.Machine
end

