-- ==== Sys2Proof/Laws/Display.lean ====
section
/-!
SUPPORT. What drawing does, cell by cell: each cell of the grid is XORed with the sprite's bit on it, and the collision
is that some lit cell was under a set bit (spec/43_display.md R162). The loops of Ops.lean are unfolded here only.
-/
namespace Sys2Proof.Machine

/-- Whether byte `b`, drawn from column `x0`, has a set bit on column `col`. -/
def rowBit (b : Byte) (x0 col : Nat) : Bool :=
  decide (x0 ≤ col) && decide (col < x0 + 8) && b.getLsbD (7 - (col - x0))

/-- Whether the sprite `bytes`, drawn from row `y0` and column `x0`, has a set bit on the cell. -/
def spriteBit (bytes : List Byte) (y0 x0 row col : Nat) : Bool :=
  decide (y0 ≤ row) && (bytes[row - y0]?).any fun b => rowBit b x0 col

theorem Screen.lit_outside (d : Screen) {y x : Nat} (h : ¬(y < 32 ∧ x < 64)) : Screen.lit d y x = false := dif_neg h

@[simp] theorem Screen.blank_lit (y x : Nat) : Screen.lit Screen.blank y x = false := by
  unfold Screen.lit Screen.blank
  split <;> simp

/-- A cell after a toggle. -/
theorem Screen.lit_toggle (d : Screen) (y x r c : Nat) (h : y < 32 ∧ x < 64) :
    Screen.lit (Screen.toggle d y x) r c = if r = y ∧ c = x then !Screen.lit d y x else Screen.lit d r c := by
  by_cases hg : r < 32 ∧ c < 64
  · obtain ⟨hr, hc⟩ := hg
    simp only [Screen.lit, Screen.toggle, dif_pos h, dif_pos (And.intro hr hc), Vector.getElem_set]
    by_cases hy : y = r
    · subst hy
      by_cases hx : x = c
      · subst hx; simp
      · simp [hx, Ne.symm hx]
    · have : ¬(r = y ∧ c = x) := fun e => hy e.1.symm
      simp [hy, this]
  · have ne : ¬(r = y ∧ c = x) := fun e => hg (by rw [e.1, e.2]; exact h)
    rw [if_neg ne, Screen.lit_outside _ hg, Screen.lit_outside _ hg]

/-- A cell of the grid after one sprite bit. -/
theorem plot_lit (bit : Bool) (y x : Nat) (p : Screen × Bool) {r c : Nat} (h : r < 32 ∧ c < 64) :
    Screen.lit (plot bit y x p).1 r c = (Screen.lit p.1 r c ^^ (bit && decide (r = y ∧ c = x))) := by
  unfold plot
  by_cases hg : y < 32 ∧ x < 64
  · cases bit
    · simp
    · rw [if_pos (by simp; omega)]
      rw [Screen.lit_toggle _ _ _ _ _ hg]
      by_cases e : r = y ∧ c = x
      · rw [if_pos e, e.1, e.2]; simp
      · rw [if_neg e]; simp [e]
  · have ne : ¬(r = y ∧ c = x) := fun e => hg (by rw [← e.1, ← e.2]; exact h)
    rw [if_neg (by simp; omega)]
    simp [ne]

/-- The collision after one sprite bit. -/
theorem plot_hit (bit : Bool) (y x : Nat) (p : Screen × Bool) :
    (plot bit y x p).2 = (p.2 || (bit && Screen.lit p.1 y x)) := by
  unfold plot
  by_cases hg : y < 32 ∧ x < 64
  · cases bit
    · simp
    · rw [if_pos (by simp; omega)]; simp
  · rw [if_neg (by simp; omega), Screen.lit_outside _ hg]; simp

/-- After the first `n` columns of a row. -/
theorem drawRow_upto (b : Byte) (y x0 : Nat) (p : Screen × Bool) : ∀ n, n ≤ 8 →
    let q := (List.range n).foldl (fun q c => plot (b.getLsbD (7 - c)) y (x0 + c) q) p
    (∀ r c, r < 32 ∧ c < 64 →
      Screen.lit q.1 r c = (Screen.lit p.1 r c ^^ (decide (r = y) && decide (c < x0 + n) && rowBit b x0 c))) ∧
    (q.2 = true ↔ p.2 = true ∨ ∃ k, k < n ∧ b.getLsbD (7 - k) = true ∧ Screen.lit p.1 y (x0 + k) = true) := by
  intro n
  induction n with
  | zero =>
    intro _
    refine ⟨fun r c _ => ?_, by simp⟩
    by_cases h : c < x0
    · have : ¬ x0 ≤ c := by omega
      simp [rowBit, this]
    · simp [h]
  | succ n ih =>
    intro hn
    obtain ⟨ihl, ihh⟩ := ih (by omega)
    simp only [List.range_succ, List.foldl_append, List.foldl_cons, List.foldl_nil]
    generalize hq : (List.range n).foldl (fun q c => plot (b.getLsbD (7 - c)) y (x0 + c) q) p = q at ihl ihh ⊢
    constructor
    · intro r c h
      rw [plot_lit _ _ _ _ h, ihl r c h]
      by_cases hr : r = y
      · by_cases hc : c = x0 + n
        · subst hc
          have e : rowBit b x0 (x0 + n) = b.getLsbD (7 - n) := by simp [rowBit]; omega
          simp [hr, e]
        · have : (c < x0 + (n + 1)) ↔ (c < x0 + n) := by omega
          simp [hr, hc, this]
      · simp [hr]
    · rw [plot_hit, Bool.or_eq_true, ihh, Bool.and_eq_true]
      have hl : Screen.lit q.1 y (x0 + n) = Screen.lit p.1 y (x0 + n) := by
        by_cases h : y < 32 ∧ x0 + n < 64
        · rw [ihl _ _ h]; simp
        · rw [Screen.lit_outside _ h, Screen.lit_outside _ h]
      rw [hl]
      constructor
      · rintro ((h | ⟨k, hk, h⟩) | h)
        · exact .inl h
        · exact .inr ⟨k, by omega, h⟩
        · exact .inr ⟨n, by omega, h⟩
      · rintro (h | ⟨k, hk, h⟩)
        · exact .inl (.inl h)
        · by_cases e : k = n
          · subst e; exact .inr h
          · exact .inl (.inr ⟨k, by omega, h⟩)

/-- A cell of the grid after one sprite row. -/
theorem drawRow_lit (b : Byte) (y x0 : Nat) (p : Screen × Bool) {r c : Nat} (h : r < 32 ∧ c < 64) :
    Screen.lit (drawRow b y x0 p).1 r c = (Screen.lit p.1 r c ^^ (decide (r = y) && rowBit b x0 c)) := by
  have := (drawRow_upto b y x0 p 8 (Nat.le_refl 8)).1 r c h
  unfold drawRow
  rw [this]
  by_cases hc : c < x0 + 8
  · simp [hc]
  · simp [hc, rowBit]

/-- The collision after one sprite row. -/
theorem drawRow_hit (b : Byte) (y x0 : Nat) (p : Screen × Bool) :
    (drawRow b y x0 p).2 = true ↔
      p.2 = true ∨ ∃ col, col < 64 ∧ rowBit b x0 col = true ∧ Screen.lit p.1 y col = true := by
  have := (drawRow_upto b y x0 p 8 (Nat.le_refl 8)).2
  unfold drawRow
  rw [this]
  constructor
  · rintro (h | ⟨k, hk, hb, hl⟩)
    · exact .inl h
    · refine .inr ⟨x0 + k, ?_, ?_, hl⟩
      · by_contra hc
        rw [Screen.lit_outside _ (by omega)] at hl
        cases hl
      · simp only [rowBit, Bool.and_eq_true, decide_eq_true_eq]
        refine ⟨⟨by omega, by omega⟩, ?_⟩
        rw [Nat.add_sub_cancel_left]; exact hb
  · rintro (h | ⟨col, _, hb, hl⟩)
    · exact .inl h
    · simp only [rowBit, Bool.and_eq_true, decide_eq_true_eq] at hb
      refine .inr ⟨col - x0, by omega, hb.2, ?_⟩
      rw [Nat.add_sub_cancel' hb.1.1]; exact hl

/-- A cell of the grid after a whole sprite. -/
theorem drawRows_lit (x0 : Nat) {r c : Nat} (h : r < 32 ∧ c < 64) : ∀ (bytes : List Byte) (y0 : Nat)
    (p : Screen × Bool),
    Screen.lit (drawRows bytes y0 x0 p).1 r c = (Screen.lit p.1 r c ^^ spriteBit bytes y0 x0 r c) := by
  intro bytes
  induction bytes with
  | nil => intro y0 p; simp [drawRows, spriteBit]
  | cons b bs ih =>
    intro y0 p
    rw [drawRows, ih, drawRow_lit b y0 x0 p h]
    rcases Nat.lt_trichotomy y0 r with hy | hy | hy
    · have e : r - y0 = (r - (y0 + 1)) + 1 := by omega
      have n1 : r ≠ y0 := by omega
      have l1 : y0 ≤ r := by omega
      have l2 : y0 + 1 ≤ r := by omega
      simp [spriteBit, e, n1, l1, l2]
    · subst hy; simp [spriteBit]
    · have n1 : r ≠ y0 := by omega
      have l1 : ¬ y0 ≤ r := by omega
      have l2 : ¬ y0 + 1 ≤ r := by omega
      simp [spriteBit, n1, l1, l2]

/-- The collision after a whole sprite: some cell of the grid was lit under a set bit. -/
theorem drawRows_hit (x0 : Nat) : ∀ (bytes : List Byte) (y0 : Nat) (p : Screen × Bool),
    (drawRows bytes y0 x0 p).2 = true ↔
      p.2 = true ∨ ∃ r c, r < 32 ∧ c < 64 ∧ spriteBit bytes y0 x0 r c = true ∧ Screen.lit p.1 r c = true := by
  intro bytes
  induction bytes with
  | nil => intro y0 p; simp [drawRows, spriteBit]
  | cons b bs ih =>
    intro y0 p
    rw [drawRows, ih, drawRow_hit]
    have sb : ∀ r c, spriteBit (b :: bs) y0 x0 r c = true ↔
        (r = y0 ∧ rowBit b x0 c = true) ∨ spriteBit bs (y0 + 1) x0 r c = true := by
      intro r c
      rcases Nat.lt_trichotomy y0 r with hy | hy | hy
      · have e : r - y0 = (r - (y0 + 1)) + 1 := by omega
        have n1 : r ≠ y0 := by omega
        have l1 : y0 ≤ r := by omega
        have l2 : y0 + 1 ≤ r := by omega
        simp [spriteBit, e, n1, l1, l2]
      · subst hy; simp [spriteBit]
      · have n1 : r ≠ y0 := by omega
        have l1 : ¬ y0 ≤ r := by omega
        have l2 : ¬ y0 + 1 ≤ r := by omega
        simp [spriteBit, n1, l1, l2]
    constructor
    · rintro ((h | ⟨c, hc, hb, hl⟩) | ⟨r, c, hr, hc, hs, hl⟩)
      · exact .inl h
      · by_cases hy : y0 < 32
        · exact .inr ⟨y0, c, hy, hc, (sb y0 c).2 (.inl ⟨rfl, hb⟩), hl⟩
        · rw [Screen.lit_outside _ (by omega)] at hl; cases hl
      · refine .inr ⟨r, c, hr, hc, (sb r c).2 (.inr hs), ?_⟩
        have hne : r ≠ y0 := by
          intro e; subst e; simp [spriteBit] at hs
        rw [drawRow_lit _ _ _ _ ⟨hr, hc⟩] at hl
        simpa [hne] using hl
    · rintro (h | ⟨r, c, hr, hc, hs, hl⟩)
      · exact .inl (.inl h)
      · rcases (sb r c).1 hs with ⟨e, hb⟩ | hs'
        · subst e; exact .inl (.inr ⟨c, hc, hb, hl⟩)
        · refine .inr ⟨r, c, hr, hc, hs', ?_⟩
          have hne : r ≠ y0 := by
            intro e; subst e; simp [spriteBit] at hs'
          rw [drawRow_lit _ _ _ _ ⟨hr, hc⟩]
          simpa [hne] using hl

end Sys2Proof.Machine
end

