-- ==== Sys2Proof/Laws/Exec.lean ====
section
/-!
SUPPORT. `exec` of each instruction is its meaning, so that no proof unfolds `exec`.
-/
namespace Sys2Proof.Machine

@[simp] theorem exec_cls (s : State) : exec .cls s = execCls s := rfl
@[simp] theorem exec_ret (s : State) : exec .ret s = execRet s := rfl
@[simp] theorem exec_jp (nnn : Nat) (s : State) : exec (.jp nnn) s = execJp nnn s := rfl
@[simp] theorem exec_call (nnn : Nat) (s : State) : exec (.call nnn) s = execCall nnn s := rfl
@[simp] theorem exec_seImm (x : Reg) (nn : Byte) (s : State) : exec (.seImm x nn) s = execSeImm x nn s := rfl
@[simp] theorem exec_sneImm (x : Reg) (nn : Byte) (s : State) : exec (.sneImm x nn) s = execSneImm x nn s := rfl
@[simp] theorem exec_seReg (x y : Reg) (s : State) : exec (.seReg x y) s = execSeReg x y s := rfl
@[simp] theorem exec_ldImm (x : Reg) (nn : Byte) (s : State) : exec (.ldImm x nn) s = execLdImm x nn s := rfl
@[simp] theorem exec_addImm (x : Reg) (nn : Byte) (s : State) : exec (.addImm x nn) s = execAddImm x nn s := rfl
@[simp] theorem exec_ldReg (x y : Reg) (s : State) : exec (.ldReg x y) s = execLdReg x y s := rfl
@[simp] theorem exec_orReg (x y : Reg) (s : State) : exec (.orReg x y) s = execOrReg x y s := rfl
@[simp] theorem exec_andReg (x y : Reg) (s : State) : exec (.andReg x y) s = execAndReg x y s := rfl
@[simp] theorem exec_xorReg (x y : Reg) (s : State) : exec (.xorReg x y) s = execXorReg x y s := rfl
@[simp] theorem exec_addReg (x y : Reg) (s : State) : exec (.addReg x y) s = execAddReg x y s := rfl
@[simp] theorem exec_subReg (x y : Reg) (s : State) : exec (.subReg x y) s = execSubReg x y s := rfl
@[simp] theorem exec_shr (x y : Reg) (s : State) : exec (.shr x y) s = execShr x y s := rfl
@[simp] theorem exec_subnReg (x y : Reg) (s : State) : exec (.subnReg x y) s = execSubnReg x y s := rfl
@[simp] theorem exec_shl (x y : Reg) (s : State) : exec (.shl x y) s = execShl x y s := rfl
@[simp] theorem exec_sneReg (x y : Reg) (s : State) : exec (.sneReg x y) s = execSneReg x y s := rfl
@[simp] theorem exec_ldI (nnn : Nat) (s : State) : exec (.ldI nnn) s = execLdI nnn s := rfl
@[simp] theorem exec_jpV0 (nnn : Nat) (s : State) : exec (.jpV0 nnn) s = execJpV0 nnn s := rfl
@[simp] theorem exec_rnd (x : Reg) (nn : Byte) (s : State) : exec (.rnd x nn) s = execRnd x nn s := rfl
@[simp] theorem exec_drw (x y : Reg) (n : Nat) (s : State) : exec (.drw x y n) s = execDrw x y n s := rfl
@[simp] theorem exec_skp (x : Reg) (s : State) : exec (.skp x) s = execSkp x s := rfl
@[simp] theorem exec_sknp (x : Reg) (s : State) : exec (.sknp x) s = execSknp x s := rfl
@[simp] theorem exec_ldVxDt (x : Reg) (s : State) : exec (.ldVxDt x) s = execLdVxDt x s := rfl
@[simp] theorem exec_ldVxKey (x : Reg) (s : State) : exec (.ldVxKey x) s = execLdVxKey x s := rfl
@[simp] theorem exec_ldDtVx (x : Reg) (s : State) : exec (.ldDtVx x) s = execLdDtVx x s := rfl
@[simp] theorem exec_ldStVx (x : Reg) (s : State) : exec (.ldStVx x) s = execLdStVx x s := rfl
@[simp] theorem exec_addI (x : Reg) (s : State) : exec (.addI x) s = execAddI x s := rfl
@[simp] theorem exec_ldFont (x : Reg) (s : State) : exec (.ldFont x) s = execLdFont x s := rfl
@[simp] theorem exec_ldBcd (x : Reg) (s : State) : exec (.ldBcd x) s = execLdBcd x s := rfl
@[simp] theorem exec_storeRegs (x : Reg) (s : State) : exec (.storeRegs x) s = execStoreRegs x s := rfl
@[simp] theorem exec_loadRegs (x : Reg) (s : State) : exec (.loadRegs x) s = execLoadRegs x s := rfl

end Sys2Proof.Machine
end

