-- ==== Sys2Proof/Laws/PerInstr.lean ====
section
/-!
SUPPORT. Per-instruction facts about the encoding: the word of each well-formed instruction decodes to it.
-/
namespace Sys2Proof.Laws

/-! ### Fields of an encoded word -/

/-- The class and the low 12 bits of a word put together from them. -/
theorem slice_wordOf {c r : Nat} (hc : c < 16) (hr : r < 4096) (hi lo : Nat) :
    slice (wordOf c r) hi lo = (c * 4096 + r) / 2 ^ lo % 2 ^ (hi + 1 - lo) := by
  have : c * 4096 + r < 2 ^ 16 := by omega
  rw [slice, wordOf, BitVec.toNat_ofNat, Nat.mod_eq_of_lt this]

/-- The fields of a word of class `c` whose low 12 bits are `r`. -/
theorem fields_wordOf {c r : Nat} (hc : c < 16) (hr : r < 4096) :
    fields (wordOf c r) =
      { cls := c, x := Fin.ofNat 16 (r / 256), y := Fin.ofNat 16 (r / 16), n := r % 16,
        nn := BitVec.ofNat 8 r, nnn := r } := by
  simp only [fields, slice_wordOf hc hr, Fields.mk.injEq]
  refine ⟨by omega, Fin.ext ?_, Fin.ext ?_, by omega, BitVec.eq_of_toNat_eq ?_, by omega⟩
  · simp only [Fin.val_ofNat]; omega
  · simp only [Fin.val_ofNat]; omega
  · simp only [BitVec.toNat_ofNat]; omega

/-- Format XIMM (spec/30_encoding.md R72). -/
theorem fields_wordXImm {c : Nat} (hc : c < 16) (x : Reg) (nn : Byte) :
    (fields (wordXImm c x nn)).cls = c ∧ (fields (wordXImm c x nn)).x = x ∧ (fields (wordXImm c x nn)).nn = nn := by
  have hx := x.isLt
  have hn := nn.isLt
  rw [wordXImm, fields_wordOf hc (by omega)]
  refine ⟨rfl, Fin.ext ?_, BitVec.eq_of_toNat_eq ?_⟩
  · simp only [Fin.val_ofNat]; omega
  · simp only [BitVec.toNat_ofNat]; omega

/-- Formats XY and XYN (R72). -/
theorem fields_wordXYN {c n : Nat} (hc : c < 16) (x y : Reg) (hn : n < 16) :
    (fields (wordXYN c x y n)).cls = c ∧ (fields (wordXYN c x y n)).x = x ∧ (fields (wordXYN c x y n)).y = y ∧
      (fields (wordXYN c x y n)).n = n := by
  have hx := x.isLt
  have hy := y.isLt
  rw [wordXYN, fields_wordOf hc (by omega)]
  refine ⟨rfl, Fin.ext ?_, Fin.ext ?_, ?_⟩
  · simp only [Fin.val_ofNat]; omega
  · simp only [Fin.val_ofNat]; omega
  · simp only; omega

/-- Format XSEL (R72). -/
theorem fields_wordXSel {c sel : Nat} (hc : c < 16) (x : Reg) (hs : sel < 256) :
    (fields (wordXSel c x sel)).cls = c ∧ (fields (wordXSel c x sel)).x = x ∧
      (fields (wordXSel c x sel)).nn = BitVec.ofNat 8 sel := by
  have hx := x.isLt
  rw [wordXSel, fields_wordOf hc (by omega)]
  refine ⟨rfl, Fin.ext ?_, BitVec.eq_of_toNat_eq ?_⟩
  · simp only [Fin.val_ofNat]; omega
  · simp only [BitVec.toNat_ofNat]; omega

/-- Format ADDR (R72). -/
theorem fields_addr {c nnn : Nat} (hc : c < 16) (h : addrInRange nnn = true) :
    (fields (wordOf c nnn)).cls = c ∧ (fields (wordOf c nnn)).nnn = nnn := by
  rw [fields_wordOf hc (by simpa [addrInRange] using h)]
  exact ⟨rfl, rfl⟩

/-! ### One lemma per instruction -/

/-- The word of the instruction decodes to it, with every operand at every value its field admits. -/
def WordRoundTrip.Statement (i : Instr) : Prop := i.wellFormed = true → decodeWord (encode i) = some i

theorem WordRoundTrip.cls : WordRoundTrip.Statement .cls := fun _ => by decide

theorem WordRoundTrip.ret : WordRoundTrip.Statement .ret := fun _ => by decide

theorem WordRoundTrip.jp (nnn : Nat) : WordRoundTrip.Statement (.jp nnn) := fun h => by
  obtain ⟨h1, h2⟩ := fields_addr (c := 1) (by decide) h
  simp only [decodeWord, select, encode, h1, h2]

theorem WordRoundTrip.call (nnn : Nat) : WordRoundTrip.Statement (.call nnn) := fun h => by
  obtain ⟨h1, h2⟩ := fields_addr (c := 2) (by decide) h
  simp only [decodeWord, select, encode, h1, h2]

theorem WordRoundTrip.ldI (nnn : Nat) : WordRoundTrip.Statement (.ldI nnn) := fun h => by
  obtain ⟨h1, h2⟩ := fields_addr (c := 10) (by decide) h
  simp only [decodeWord, select, encode, h1, h2]

theorem WordRoundTrip.jpV0 (nnn : Nat) : WordRoundTrip.Statement (.jpV0 nnn) := fun h => by
  obtain ⟨h1, h2⟩ := fields_addr (c := 11) (by decide) h
  simp only [decodeWord, select, encode, h1, h2]

theorem WordRoundTrip.seImm (x : Reg) (nn : Byte) : WordRoundTrip.Statement (.seImm x nn) := fun _ => by
  obtain ⟨h1, h2, h3⟩ := fields_wordXImm (c := 3) (by decide) x nn
  simp only [decodeWord, select, encode, h1, h2, h3]

theorem WordRoundTrip.sneImm (x : Reg) (nn : Byte) : WordRoundTrip.Statement (.sneImm x nn) := fun _ => by
  obtain ⟨h1, h2, h3⟩ := fields_wordXImm (c := 4) (by decide) x nn
  simp only [decodeWord, select, encode, h1, h2, h3]

theorem WordRoundTrip.ldImm (x : Reg) (nn : Byte) : WordRoundTrip.Statement (.ldImm x nn) := fun _ => by
  obtain ⟨h1, h2, h3⟩ := fields_wordXImm (c := 6) (by decide) x nn
  simp only [decodeWord, select, encode, h1, h2, h3]

theorem WordRoundTrip.addImm (x : Reg) (nn : Byte) : WordRoundTrip.Statement (.addImm x nn) := fun _ => by
  obtain ⟨h1, h2, h3⟩ := fields_wordXImm (c := 7) (by decide) x nn
  simp only [decodeWord, select, encode, h1, h2, h3]

theorem WordRoundTrip.rnd (x : Reg) (nn : Byte) : WordRoundTrip.Statement (.rnd x nn) := fun _ => by
  obtain ⟨h1, h2, h3⟩ := fields_wordXImm (c := 12) (by decide) x nn
  simp only [decodeWord, select, encode, h1, h2, h3]

theorem WordRoundTrip.seReg (x y : Reg) : WordRoundTrip.Statement (.seReg x y) := fun _ => by
  obtain ⟨h1, h2, h3, h4⟩ := fields_wordXYN (c := 5) (n := 0) (by decide) x y (by decide)
  simp only [decodeWord, select, encode, h1, h2, h3, h4, if_true]

theorem WordRoundTrip.ldReg (x y : Reg) : WordRoundTrip.Statement (.ldReg x y) := fun _ => by
  obtain ⟨h1, h2, h3, h4⟩ := fields_wordXYN (c := 8) (n := 0) (by decide) x y (by decide)
  simp only [decodeWord, select, encode, h1, h2, h3, h4, selectAlu]

theorem WordRoundTrip.orReg (x y : Reg) : WordRoundTrip.Statement (.orReg x y) := fun _ => by
  obtain ⟨h1, h2, h3, h4⟩ := fields_wordXYN (c := 8) (n := 1) (by decide) x y (by decide)
  simp only [decodeWord, select, encode, h1, h2, h3, h4, selectAlu]

theorem WordRoundTrip.andReg (x y : Reg) : WordRoundTrip.Statement (.andReg x y) := fun _ => by
  obtain ⟨h1, h2, h3, h4⟩ := fields_wordXYN (c := 8) (n := 2) (by decide) x y (by decide)
  simp only [decodeWord, select, encode, h1, h2, h3, h4, selectAlu]

theorem WordRoundTrip.xorReg (x y : Reg) : WordRoundTrip.Statement (.xorReg x y) := fun _ => by
  obtain ⟨h1, h2, h3, h4⟩ := fields_wordXYN (c := 8) (n := 3) (by decide) x y (by decide)
  simp only [decodeWord, select, encode, h1, h2, h3, h4, selectAlu]

theorem WordRoundTrip.addReg (x y : Reg) : WordRoundTrip.Statement (.addReg x y) := fun _ => by
  obtain ⟨h1, h2, h3, h4⟩ := fields_wordXYN (c := 8) (n := 4) (by decide) x y (by decide)
  simp only [decodeWord, select, encode, h1, h2, h3, h4, selectAlu]

theorem WordRoundTrip.subReg (x y : Reg) : WordRoundTrip.Statement (.subReg x y) := fun _ => by
  obtain ⟨h1, h2, h3, h4⟩ := fields_wordXYN (c := 8) (n := 5) (by decide) x y (by decide)
  simp only [decodeWord, select, encode, h1, h2, h3, h4, selectAlu]

theorem WordRoundTrip.shr (x y : Reg) : WordRoundTrip.Statement (.shr x y) := fun _ => by
  obtain ⟨h1, h2, h3, h4⟩ := fields_wordXYN (c := 8) (n := 6) (by decide) x y (by decide)
  simp only [decodeWord, select, encode, h1, h2, h3, h4, selectAlu]

theorem WordRoundTrip.subnReg (x y : Reg) : WordRoundTrip.Statement (.subnReg x y) := fun _ => by
  obtain ⟨h1, h2, h3, h4⟩ := fields_wordXYN (c := 8) (n := 7) (by decide) x y (by decide)
  simp only [decodeWord, select, encode, h1, h2, h3, h4, selectAlu]

theorem WordRoundTrip.shl (x y : Reg) : WordRoundTrip.Statement (.shl x y) := fun _ => by
  obtain ⟨h1, h2, h3, h4⟩ := fields_wordXYN (c := 8) (n := 14) (by decide) x y (by decide)
  simp only [decodeWord, select, encode, h1, h2, h3, h4, selectAlu]

theorem WordRoundTrip.sneReg (x y : Reg) : WordRoundTrip.Statement (.sneReg x y) := fun _ => by
  obtain ⟨h1, h2, h3, h4⟩ := fields_wordXYN (c := 9) (n := 0) (by decide) x y (by decide)
  simp only [decodeWord, select, encode, h1, h2, h3, h4, if_true]

theorem WordRoundTrip.drw (x y : Reg) (n : Nat) : WordRoundTrip.Statement (.drw x y n) := fun h => by
  obtain ⟨h1, h2, h3, h4⟩ := fields_wordXYN (c := 13) (n := n) (by decide) x y
    (by simpa [Instr.wellFormed, countInRange] using h)
  simp only [decodeWord, select, encode, h1, h2, h3, h4]

theorem WordRoundTrip.skp (x : Reg) : WordRoundTrip.Statement (.skp x) := fun _ => by
  obtain ⟨h1, h2, h3⟩ := fields_wordXSel (c := 14) (sel := 158) (by decide) x (by decide)
  simp [decodeWord, select, encode, h1, h2, h3]

theorem WordRoundTrip.sknp (x : Reg) : WordRoundTrip.Statement (.sknp x) := fun _ => by
  obtain ⟨h1, h2, h3⟩ := fields_wordXSel (c := 14) (sel := 161) (by decide) x (by decide)
  simp [decodeWord, select, encode, h1, h2, h3]

theorem WordRoundTrip.ldVxDt (x : Reg) : WordRoundTrip.Statement (.ldVxDt x) := fun _ => by
  obtain ⟨h1, h2, h3⟩ := fields_wordXSel (c := 15) (sel := 7) (by decide) x (by decide)
  simp [decodeWord, select, encode, h1, h2, h3, selectMisc]

theorem WordRoundTrip.ldVxKey (x : Reg) : WordRoundTrip.Statement (.ldVxKey x) := fun _ => by
  obtain ⟨h1, h2, h3⟩ := fields_wordXSel (c := 15) (sel := 10) (by decide) x (by decide)
  simp [decodeWord, select, encode, h1, h2, h3, selectMisc]

theorem WordRoundTrip.ldDtVx (x : Reg) : WordRoundTrip.Statement (.ldDtVx x) := fun _ => by
  obtain ⟨h1, h2, h3⟩ := fields_wordXSel (c := 15) (sel := 21) (by decide) x (by decide)
  simp [decodeWord, select, encode, h1, h2, h3, selectMisc]

theorem WordRoundTrip.ldStVx (x : Reg) : WordRoundTrip.Statement (.ldStVx x) := fun _ => by
  obtain ⟨h1, h2, h3⟩ := fields_wordXSel (c := 15) (sel := 24) (by decide) x (by decide)
  simp [decodeWord, select, encode, h1, h2, h3, selectMisc]

theorem WordRoundTrip.addI (x : Reg) : WordRoundTrip.Statement (.addI x) := fun _ => by
  obtain ⟨h1, h2, h3⟩ := fields_wordXSel (c := 15) (sel := 30) (by decide) x (by decide)
  simp [decodeWord, select, encode, h1, h2, h3, selectMisc]

theorem WordRoundTrip.ldFont (x : Reg) : WordRoundTrip.Statement (.ldFont x) := fun _ => by
  obtain ⟨h1, h2, h3⟩ := fields_wordXSel (c := 15) (sel := 41) (by decide) x (by decide)
  simp [decodeWord, select, encode, h1, h2, h3, selectMisc]

theorem WordRoundTrip.ldBcd (x : Reg) : WordRoundTrip.Statement (.ldBcd x) := fun _ => by
  obtain ⟨h1, h2, h3⟩ := fields_wordXSel (c := 15) (sel := 51) (by decide) x (by decide)
  simp [decodeWord, select, encode, h1, h2, h3, selectMisc]

theorem WordRoundTrip.storeRegs (x : Reg) : WordRoundTrip.Statement (.storeRegs x) := fun _ => by
  obtain ⟨h1, h2, h3⟩ := fields_wordXSel (c := 15) (sel := 85) (by decide) x (by decide)
  simp [decodeWord, select, encode, h1, h2, h3, selectMisc]

theorem WordRoundTrip.loadRegs (x : Reg) : WordRoundTrip.Statement (.loadRegs x) := fun _ => by
  obtain ⟨h1, h2, h3⟩ := fields_wordXSel (c := 15) (sel := 101) (by decide) x (by decide)
  simp [decodeWord, select, encode, h1, h2, h3, selectMisc]

end Sys2Proof.Laws
end

