-- ==== Sys2Proof/Tests/Slice0.lean ====
section
/-!
SUPPORT. The model's own tests: well-formedness, words written out from the encodings of the spec, one step each of the
spec's vectors (95_test_vectors.md; the vector's id stands beside the test), and for every obligation with hypotheses a
concrete state and operands that meet them.
-/
namespace Sys2Proof.Tests
open Sys2Proof Sys2Proof.Machine

/-! ### Helpers -/

/-- Reset, running. -/
def base : State := { State.reset with mode := .running }

/-- A byte list placed in memory. -/
def withBytes (s : State) (a : Nat) (bs : List Byte) : State := { s with mem := s.mem.writeBytes a bs }

def atPc (s : State) (a : Nat) : State := s.setPc a

def atI (s : State) (a : Nat) : State := s.setI (BitVec.ofNat 16 a)

/-- Key `k` held down. -/
def holding (s : State) (k : Key) : State := { s with keys := s.keys.set k.val true k.isLt }

/-- A cell lit. -/
def withCell (s : State) (y x : Nat) : State := { s with disp := Screen.toggle s.disp y x }

/-- What holds of the next state, if there is one. -/
def nextIs (o : Host.Outcome State Fault Refusal) (p : State → Bool) : Bool :=
  match o with
  | .next t => p t
  | .fault _ => false
  | .refused _ => false

/-- One `Exec` of a word at `PC`. -/
def ran (s : State) (op : Nat) (p : State → Bool) : Bool := nextIs (step (s.withFetchWord 16 op)) p

/-- The fault `k` recorded on the word `op`, at the same `PC`. -/
def isFault (k : FaultKind) (op : Word) (s t : State) : Bool :=
  decide (t.mode = .faulted) && decide (t.fkind = some k) && decide (t.fop = op) && decide (t.fpc = s.pc) &&
    decide (t.pc = s.pc)

/-! ### Well-formedness: each check refuses a term and accepts its boundary -/

theorem test_wf_address_out_of_range :
    Instr.wellFormed (.jp 4096) = false ∧ Instr.wellFormed (.call 4096) = false ∧
    Instr.wellFormed (.ldI 4096) = false ∧ Instr.wellFormed (.jpV0 65536) = false := by decide

theorem test_wf_count_out_of_range : Instr.wellFormed (.drw 0 0 16) = false := by decide

theorem test_wf_boundary_accepted :
    Instr.wellFormed (.jp 4095) = true ∧ Instr.wellFormed (.drw 15 15 15) = true ∧
    Instr.wellFormed (.ldImm 15 0xFF) = true := by decide

theorem test_assemble_refuses_out_of_range :
    assemble [.instr .cls, .instr (.jp 4096)] = none ∧
    assemble [.instr .cls, .instr (.ldImm 0 5), .db [0xAA]] = some [0x00, 0xE0, 0x60, 0x05, 0xAA] := by decide

/-! ### Decoding: a word of every row, written out from the `encoding` column of the table of R75 -/

theorem test_decode_control :
    decodeWord 0b0000000011101110 = some .ret ∧
    decodeWord 0b0001001000110100 = some (.jp 0x234) ∧
    decodeWord 0b0010101010111100 = some (.call 0xABC) ∧
    decodeWord 0b0011101000010010 = some (.seImm 10 0x12) ∧
    decodeWord 0b0100000111111111 = some (.sneImm 1 0xFF) ∧
    decodeWord 0b0101001000110000 = some (.seReg 2 3) ∧
    decodeWord 0b1001101010110000 = some (.sneReg 10 11) ∧
    decodeWord 0b1011001111111110 = some (.jpV0 0x3FE) := by decide

theorem test_decode_alu_moves :
    decodeWord 0b0110101001111111 = some (.ldImm 10 0x7F) ∧
    decodeWord 0b0111000111111111 = some (.addImm 1 0xFF) ∧
    decodeWord 0b1000000000010000 = some (.ldReg 0 1) ∧
    decodeWord 0b1000000000010001 = some (.orReg 0 1) ∧
    decodeWord 0b1000000000010010 = some (.andReg 0 1) ∧
    decodeWord 0b1000000000010011 = some (.xorReg 0 1) := by decide

theorem test_decode_alu_flags :
    decodeWord 0b1000101010110100 = some (.addReg 10 11) ∧
    decodeWord 0b1000111100010101 = some (.subReg 15 1) ∧
    decodeWord 0b1000001000110110 = some (.shr 2 3) ∧
    decodeWord 0b1000000000010111 = some (.subnReg 0 1) ∧
    decodeWord 0b1000001000111110 = some (.shl 2 3) ∧
    decodeWord 0b1100001100001111 = some (.rnd 3 0x0F) := by decide

theorem test_decode_index_memory :
    decodeWord 0b1010111111111111 = some (.ldI 0xFFF) ∧
    decodeWord 0b1111001000011110 = some (.addI 2) ∧
    decodeWord 0b1111000000101001 = some (.ldFont 0) ∧
    decodeWord 0b1111101000110011 = some (.ldBcd 10) ∧
    decodeWord 0b1111001001010101 = some (.storeRegs 2) ∧
    decodeWord 0b1111111101100101 = some (.loadRegs 15) := by decide

theorem test_decode_display_keypad_timer :
    decodeWord 0b0000000011100000 = some .cls ∧
    decodeWord 0b1101010110100011 = some (.drw 5 10 3) ∧
    decodeWord 0b1110000010011110 = some (.skp 0) ∧
    decodeWord 0b1110000010100001 = some (.sknp 0) ∧
    decodeWord 0b1111000100000111 = some (.ldVxDt 1) ∧
    decodeWord 0b1111001100001010 = some (.ldVxKey 3) ∧
    decodeWord 0b1111000000010101 = some (.ldDtVx 0) ∧
    decodeWord 0b1111000000011000 = some (.ldStVx 0) := by decide

/-- T-E5 to T-E14. -/
theorem test_decode_illegal :
    decodeWord 0x0000 = none ∧ decodeWord 0x00E1 = none ∧ decodeWord 0x01E0 = none ∧ decodeWord 0x5231 = none ∧
    decodeWord 0x9AB7 = none ∧ decodeWord 0x8008 = none ∧ decodeWord 0xE09F = none ∧ decodeWord 0xF000 = none ∧
    decodeWord 0xF075 = none ∧ decodeWord 0xFFFF = none := by decide

/-- T-E17: the byte at the lower address is the high one. -/
theorem test_decode_bytes_big_endian :
    decodeBytes [0x12, 0x34, 0x56] = .ok (.jp 0x234, [0x56]) ∧ decodeBytes [0x12] = .error .truncated := by
  constructor <;> rfl

/-! ### One step: control flow -/

/-- T-C1. -/
theorem test_jp :
    ran base 0x1234 (fun t => t.pc == 0x234) = true := by decide

/-- T-C2. -/
theorem test_jp_odd :
    ran base 0x1235 (fun t => isFault .outOfBoundsAccess 0x1235 base t) = true := by decide

/-- T-C5: the push is not checked. -/
theorem test_call :
    ran (atPc base 0xFFE) 0x2300 (fun t => t.pc == 0x300 && t.sp == 1 && t.stack[0] == 0x1000) = true := by decide

/-- T-C7. -/
theorem test_call_full_before_odd :
    ran { base with sp := 16 } 0x2ABD (fun t => isFault .stackOverflow 0x2ABD base t && t.sp == 16) =
      true := by decide

/-- T-C9. -/
theorem test_ret :
    ran { atPc base 0x300 with sp := 1, stack := base.stack.set 0 0x202 } 0x00EE
      (fun t => t.pc == 0x202 && t.sp == 0 && t.stack[0] == 0x202) = true := by decide

/-- T-C10. -/
theorem test_ret_past_memory :
    ran { atPc base 0x300 with sp := 1, stack := base.stack.set 0 0x1000 } 0x00EE
      (fun t => isFault .outOfBoundsAccess 0x00EE (atPc base 0x300) t && t.sp == 1) = true := by decide

/-- T-C15: `V0`, never `V3`. -/
theorem test_jpV0 :
    ran (base.setReg 3 0xFE) 0xB3FE (fun t => t.pc == 0x3FE) = true := by decide

/-- T-C14. -/
theorem test_jpV0_no_wrap :
    ran (base.setReg 0 1) 0xBFFF (fun t => isFault .outOfBoundsAccess 0xBFFF base t) = true := by decide

/-- T-C16. -/
theorem test_seImm :
    ran (base.setReg 10 0x12) 0x3A12 (fun t => t.pc == 0x204) = true := by decide

/-- T-C24. -/
theorem test_seImm_past_memory :
    ran (atPc base 0xFFC) 0x3A00 (fun t => isFault .outOfBoundsAccess 0x3A00 (atPc base 0xFFC) t) =
      true := by decide

/-- T-C18. -/
theorem test_sneImm :
    ran base 0x4100 (fun t => t.pc == 0x202) = true := by decide

/-- T-C19. -/
theorem test_sneImm_taken :
    ran (base.setReg 1 1) 0x4100 (fun t => t.pc == 0x204) = true := by decide

/-- T-C21. -/
theorem test_seReg :
    ran ((base.setReg 2 1).setReg 3 2) 0x5230 (fun t => t.pc == 0x202) = true := by decide

/-- T-C23. -/
theorem test_sneReg :
    ran (base.setReg 10 1) 0x9AB0 (fun t => t.pc == 0x204) = true := by decide

/-! ### One step: arithmetic -/

/-- S1. -/
theorem test_ldImm :
    ran (base.setReg VF 9) 0x6F00 (fun t => t.reg VF == 0 && t.pc == 0x202) = true := by decide

/-- T-C26. -/
theorem test_ldImm_last_word :
    ran (atPc base 0xFFE) 0x6A07 (fun t => isFault .outOfBoundsAccess 0x6A07 (atPc base 0xFFE) t && t.reg 10 == 0) =
      true := by decide

/-- T-A2, T-A1: wraps, no flag. -/
theorem test_addImm :
    ran ((base.setReg 1 0xFF).setReg VF 7) 0x7102 (fun t => t.reg 1 == 1 && t.reg VF == 7) = true := by decide

/-- T-A4. -/
theorem test_ldReg :
    ran ((base.setReg 0 1).setReg 1 0x5A) 0x8010 (fun t => t.reg 0 == 0x5A && t.reg 1 == 0x5A) = true := by decide

/-- T-A5. -/
theorem test_orReg :
    ran (((base.setReg 0 0xF0).setReg 1 0x0F).setReg VF 9) 0x8011 (fun t => t.reg 0 == 0xFF && t.reg VF == 9) =
      true := by decide

/-- T-A6. -/
theorem test_andReg :
    ran ((base.setReg 0 0xF0).setReg 1 0x3C) 0x8012 (fun t => t.reg 0 == 0x30) = true := by decide

/-- T-A7. -/
theorem test_xorReg :
    ran ((base.setReg 0 0xF0).setReg 1 0x3C) 0x8013 (fun t => t.reg 0 == 0xCC) = true := by decide

/-- T-A9: 255 is no carry. -/
theorem test_addReg :
    ran ((base.setReg 0 255).setReg VF 1) 0x8014 (fun t => t.reg 0 == 255 && t.reg VF == 0) = true := by decide

/-- T-A12: the flag wins. -/
theorem test_addReg_into_flag :
    ran ((base.setReg VF 200).setReg 1 100) 0x8F14 (fun t => t.reg VF == 1) = true := by decide

/-- T-A14. -/
theorem test_subReg :
    ran ((base.setReg 0 5).setReg 1 10) 0x8015 (fun t => t.reg 0 == 0xFB && t.reg VF == 0) = true := by decide

/-- T-A15. -/
theorem test_subReg_equal :
    ran ((base.setReg 0 10).setReg 1 10) 0x8015 (fun t => t.reg 0 == 0 && t.reg VF == 1) = true := by decide

/-- T-A19: `Vy` is ignored. -/
theorem test_shr :
    ran ((base.setReg 2 0x80).setReg 3 0xFF) 0x8236 (fun t => t.reg 2 == 0x40 && t.reg VF == 0) = true := by decide

/-- T-A20: the value wins. -/
theorem test_shr_flag_register :
    ran (base.setReg VF 5) 0x8F06 (fun t => t.reg VF == 2) = true := by decide

/-- T-A21. -/
theorem test_subnReg :
    ran ((base.setReg 0 5).setReg 1 10) 0x8017 (fun t => t.reg 0 == 5 && t.reg VF == 1) = true := by decide

/-- S3b. -/
theorem test_shl :
    ran (base.setReg 2 0x81) 0x820E (fun t => t.reg 2 == 2 && t.reg VF == 1) = true := by decide

/-- T-A26: the value wins. -/
theorem test_shl_flag_register :
    ran (base.setReg VF 0x81) 0x8F0E (fun t => t.reg VF == 2) = true := by decide

/-- T-A27. -/
theorem test_rnd :
    ran { base with rndIn := [0xA7, 0x01] } 0xC30F (fun t => t.reg 3 == 0x07 && t.rndIn == [0x01]) =
      true := by decide

/-! ### One step: index and memory -/

/-- T-M1. -/
theorem test_ldI :
    ran base 0xAFFF (fun t => t.i == 0x0FFF) = true := by decide

/-- T-M3: mod 65536, no flag. -/
theorem test_addI :
    ran ((atI base 0xFFFF).setReg 2 1 |>.setReg VF 7) 0xF21E (fun t => t.i == 0 && t.reg VF == 7) =
      true := by decide

/-- T-M6. -/
theorem test_ldFont :
    ran (base.setReg 0 255) 0xF029 (fun t => t.i == 1275) = true := by decide

/-- T-M7. -/
theorem test_ldBcd :
    ran ((atI base 0x300).setReg 0 254) 0xF033
      (fun t => t.readByte 0x300 == 2 && t.readByte 0x301 == 5 && t.readByte 0x302 == 4 && t.i == 0x300) =
      true := by decide

/-- T-M11. -/
theorem test_ldBcd_no_partial_store :
    ran ((atI base 4094).setReg 0 255) 0xF033
      (fun t => isFault .outOfBoundsAccess 0xF033 base t && t.readByte 4094 == 0) = true := by decide

/-- T-M14: `x = 2` stores three. -/
theorem test_storeRegs :
    ran (((((atI base 0x400).setReg 0 1).setReg 1 2).setReg 2 3).setReg 3 4) 0xF255
      (fun t => t.readByte 0x400 == 1 && t.readByte 0x402 == 3 && t.readByte 0x403 == 0 && t.i == 0x400) =
      true := by decide

/-- T-M18. -/
theorem test_storeRegs_font :
    ran ((((atI base 78).setReg 0 1).setReg 2 3).setReg 3 4) 0xF355
      (fun t => isFault .outOfBoundsAccess 0xF355 base t && t.readByte 80 == 0 && t.readByte 81 == 0) =
      true := by decide

/-- T-M20, T-M23 at the edge. -/
theorem test_loadRegs :
    ran (atI (withBytes (base.setReg 2 9) 4094 [0xCD, 0xAB]) 4094) 0xF165
      (fun t => t.reg 0 == 0xCD && t.reg 1 == 0xAB && t.reg 2 == 9) = true := by decide

/-- T-M21. -/
theorem test_loadRegs_no_partial_load :
    ran (atI (withBytes base 4095 [0xAB]) 4095) 0xF165
      (fun t => isFault .outOfBoundsAccess 0xF165 base t && t.reg 0 == 0) = true := by decide

/-! ### One step: display -/

/-- S4. -/
theorem test_cls :
    ran (withCell (base.setReg VF 1) 31 63) 0x00E0 (fun t => !Screen.lit t.disp 31 63 && t.reg VF == 1) =
      true := by decide

/-- T-D1. -/
theorem test_drw_clips :
    ran (atI (withBytes ((base.setReg 0 62).setReg 1 31) 0x300 [0xFF]) 0x300) 0xD011
      (fun t => Screen.lit t.disp 31 62 && Screen.lit t.disp 31 63 && !Screen.lit t.disp 31 0 &&
        !Screen.lit t.disp 0 0 && t.reg VF == 0) = true := by decide

/-- T-D8. -/
theorem test_drw_collides :
    ran (atI (withBytes (withCell (withCell (withCell ((base.setReg 0 4).setReg 1 30) 30 4) 30 5) 31 5) 0x300
        [0xA0, 0x40]) 0x300) 0xD012
      (fun t => !Screen.lit t.disp 30 4 && Screen.lit t.disp 30 5 && Screen.lit t.disp 30 6 &&
        !Screen.lit t.disp 31 5 && t.reg VF == 1) = true := by decide

/-! ### One step: keypad and timers -/

/-- T-K1. -/
theorem test_skp :
    ran (holding (base.setReg 0 5) 5) 0xE09E (fun t => t.pc == 0x204) = true := by decide

/-- T-K5. -/
theorem test_skp_no_such_key :
    ran (base.setReg 0 16) 0xE09E (fun t => isFault .outOfBoundsAccess 0xE09E base t) = true := by decide

/-- T-K3. -/
theorem test_sknp :
    ran (base.setReg 0 5) 0xE0A1 (fun t => t.pc == 0x204) = true := by decide

/-- T-K4. -/
theorem test_sknp_down :
    ran (holding (base.setReg 0 5) 5) 0xE0A1 (fun t => t.pc == 0x202) = true := by decide

/-- T-K7: a held key does not complete it. -/
theorem test_ldVxKey :
    ran (holding (atPc base 0x210) 2) 0xF30A
      (fun t => decide (t.mode = .waitKey) && t.waitX == 3 && t.pc == 0x210 && t.reg 3 == 0) = true := by decide

/-- T-K10. -/
theorem test_ldVxKey_completes :
    nextIs (step { atPc base 0x210 with mode := .waitKey, waitX := 3, pending := [.keyDown 2] })
      (fun t => t.reg 3 == 2 && t.pc == 0x212 && decide (t.mode = .running) && t.keys[2]) = true := by decide

/-- T-T1. -/
theorem test_ldVxDt :
    ran { base with dt := 0x2A } 0xF107 (fun t => t.reg 1 == 0x2A && t.dt == 0x2A) = true := by decide

/-- T-T2. -/
theorem test_ldDtVx :
    ran (base.setReg 0 60) 0xF015 (fun t => t.dt == 60 && t.st == 0) = true := by decide

/-- T-T3. -/
theorem test_ldStVx :
    ran (base.setReg 0 8) 0xF018 (fun t => t.st == 8 && t.dt == 0) = true := by decide

/-! ### The other transitions -/

/-- T-T4. -/
theorem test_tick_clamps :
    nextIs (step { base with dt := 1, st := 0, pending := [.tick] }) (fun t => t.dt == 0 && t.st == 0) =
      true := by decide

/-- T-T5. -/
theorem test_tick_when_stopped :
    nextIs (step { State.reset with dt := 5, pending := [.tick] }) (fun t => t.dt == 5) = true := by decide

/-- T-R5. -/
theorem test_load_odd_length :
    nextIs (step { State.reset with pending := [.load [0x12, 0x00, 0xAA]] })
      (fun t => t.readByte 0x200 == 0x12 && t.readByte 0x202 == 0xAA && t.readByte 0x203 == 0) = true := by decide

/-- T-T8. -/
theorem test_sound_on :
    ((observe { base with st := 1 }).soundOn && !(observe (tick { base with st := 1 })).soundOn) = true := by decide

/-- The default font table has 80 bytes (R52). -/
theorem test_default_font_length : Config.defaultFont.length = 80 := by decide

/-- T-E1, T-E2 of 95_test_vectors.md and R80. -/
theorem test_disassemble :
    disassemble (.drw 5 10 3) = "DRW V5, VA, 3" ∧ disassemble (.addReg 10 11) = "ADD VA, VB" ∧
    disassemble (.storeRegs 15) = "LD [I], VF" := by decide

/-! ### Witnesses: a state and operands that meet the hypotheses of each obligation, clause by clause -/

theorem witness_DecodeOfEncodedBytes :
    Instr.wellFormed (.jp 4095) = true ∧ Instr.wellFormed (.drw 15 15 15) = true := by decide

theorem witness_EncodeOfDecodedWord : decodeWord 0xDFFF = some (.drw 15 15 15) := by decide

theorem witness_DecoderAgreesWithTable : decodeWord 0x00EE = some .ret ∧ decodeWord 0x00EF = none := by decide

/-- The last word of memory, holding a jump to itself. -/
def lastWord : State := withBytes (atPc base 0xFFE) 0xFFE [0x1F, 0xFE]

theorem witness_StepRunsDecodedInstruction :
    lastWord.mode = .running ∧ CanFetch lastWord ∧
    decodeWord (wordOfBytes (lastWord.readByte lastWord.pc.toNat) (lastWord.readByte (lastWord.pc.toNat + 1))) =
      some (.jp 0xFFE) ∧
    lastWord.pending = [] ∧
    ({ lastWord with pending := [.exec, .tick] } : State).pending = .exec :: [.tick] := by decide

theorem witness_FetchAndDecodeFaults :
    base.mode = .running ∧ base.pending = [] ∧
    (atPc base 0x201).pc.toNat % 2 = 1 ∧ 4094 < (atPc base 0x1000).pc.toNat ∧
    CanFetch (atPc base 0xFFE) ∧
    decodeWord (wordOfBytes ((atPc base 0xFFE).readByte 0xFFE) ((atPc base 0xFFE).readByte 0xFFF)) = none := by decide

theorem witness_ExecutorHeldUnlessRunning :
    State.reset.pending = [] ∧ State.reset.mode = .stopped ∧
    ({ base with mode := .waitKey } : State).mode = .waitKey ∧
    ({ base with mode := .faulted } : State).mode = .faulted := by decide

theorem witness_PlacedWordRunsNext :
    lastWord.mem.wf = true ∧ CanFetch lastWord ∧ decodeTableWord 16 0x2300 = some (.call 0x300) := by decide

theorem witness_FaultingInstructionCommitsNothing :
    base.mode ≠ .faulted ∧ nextIs (exec .ret base) (fun t => decide (t.mode = .faulted)) = true := by decide

theorem witness_OnlyTransfersCompleteInLastWord :
    isTransfer .cls = false ∧ (atPc base 0xFFE).pc = 0xFFE ∧ (atPc base 0xFFC).pc = 0xFFC ∧
    (atPc base 0xFFC).reg 0 = 0 ∧ (atPc base 0xFFC).reg 0 ≠ 1 := by decide

theorem witness_RegistersWrittenByInstruction : ∃ t, exec (.addReg 0 1) base = .next t := ⟨_, rfl⟩

theorem witness_MemoryWrittenOnlyByStores :
    base.mem.wf = true ∧ ∃ t, exec (.storeRegs 15) (atI base 4080) = .next t := ⟨by decide, _, rfl⟩

/-- 00E0 meets every premise but the display's and the fault record's; FX07 meets those two. -/
theorem witness_OtherStateWrittenByInstruction :
    (∃ t, exec .cls base = .next t) ∧
    (∀ nnn x, (Instr.cls ≠ .ldI nnn ∧ Instr.cls ≠ .addI x ∧ Instr.cls ≠ .ldFont x)) ∧
    (∀ nnn, (Instr.cls ≠ .call nnn ∧ Instr.cls ≠ .ret)) ∧ (∀ x, Instr.cls ≠ .ldDtVx x) ∧
    (∀ x, Instr.cls ≠ .ldStVx x) ∧ (∀ x, Instr.cls ≠ .ldVxKey x) ∧ (∀ x nn, Instr.cls ≠ .rnd x nn) ∧
    (∀ x y n, (Instr.ldVxDt 0 ≠ .cls ∧ Instr.ldVxDt 0 ≠ .drw x y n)) ∧
    nextIs (exec (.ldVxDt 0) base) (fun t => decide (t.mode ≠ .faulted)) = true := by
  refine ⟨⟨_, rfl⟩, ?_, ?_, ?_, ?_, ?_, ?_, ?_, by decide⟩ <;> intros <;> simp

theorem witness_JumpResult : 0xFFE < 4096 ∧ 0xFFE % 2 = 0 ∧ 0xFFF < 4096 ∧ 0xFFF % 2 = 1 := by decide

theorem witness_CallResult :
    0xFFE < 4096 ∧ ({ base with sp := 15 } : State).sp.val < 16 ∧ 0xFFE % 2 = 0 ∧ (atPc base 0xFFE).pc.toNat ≤ 4094 ∧
    ({ base with sp := 16 } : State).sp.val = 16 ∧ 0xFFF < 4096 ∧ 0xFFF % 2 = 1 := by decide

/-- One entry on the stack. -/
def oneEntry (w : Word) : State := { base with sp := 1, stack := base.stack.set 0 w }

theorem witness_ReturnResult :
    base.sp.val = 0 ∧ (oneEntry 0xFFE).sp.val - 1 < 16 ∧ (oneEntry 0xFFE).sp.val ≠ 0 ∧
    ((oneEntry 0xFFE).stack[0].toNat ≤ 4095 ∧ (oneEntry 0xFFE).stack[0].toNat % 2 = 0) ∧
    ¬((oneEntry 0x1000).stack[0].toNat ≤ 4095 ∧ (oneEntry 0x1000).stack[0].toNat % 2 = 0) := by decide

theorem witness_CallThenReturnComesBack :
    0xFFE < 4096 ∧ 0xFFE % 2 = 0 ∧ ({ atPc base 0xFFC with sp := 15 } : State).sp.val < 16 ∧
    CanAdvance { atPc base 0xFFC with sp := 15 } := by decide

theorem witness_SeventeenthCallOverflows :
    (List.replicate 16 0x200).length = 16 ∧ (∀ a ∈ List.replicate 16 0x200, a < 4096 ∧ a % 2 = 0) ∧
    base.sp.val = 0 ∧ base.mode = .running := by decide

theorem witness_IndirectJumpResult :
    0xFFF < 4096 ∧
    (0xFF0 + ((base.setReg 0 14).reg 0).toNat ≤ 4095 ∧ (0xFF0 + ((base.setReg 0 14).reg 0).toNat) % 2 = 0) ∧
    4095 < 0xFFF + ((base.setReg 0 1).reg 0).toNat ∧ (0x300 + ((base.setReg 0 5).reg 0).toNat) % 2 = 1 := by decide

theorem witness_SkipOnImmediate :
    CanAdvance (atPc base 4092) ∧ CanAdvance (atPc base 4090) ∧ (atPc base 4090).pc.toNat ≤ 4090 ∧
    (atPc base 4090).reg 3 = 0 ∧ (atPc base 4090).reg 3 ≠ 0xFF := by decide

theorem witness_SkipOnRegisters :
    CanAdvance (atPc (base.setReg 2 1) 4092) ∧ (atPc base 4092).pc.toNat = 4092 ∧
    CanAdvance (atPc base 4090) ∧ (atPc base 4090).pc.toNat ≤ 4090 ∧
    (base.setReg 2 1).reg 3 = (base.setReg 2 1).reg 4 ∧ (base.setReg 2 1).reg 2 ≠ (base.setReg 2 1).reg 3 := by decide

/-- Both ends of the range of `PC`. -/
theorem witness_LoadImmediate : CanAdvance (atPc base 0) ∧ CanAdvance (atPc base 4092) := by decide

theorem witness_AddImmediate : CanAdvance (atPc base 0) ∧ CanAdvance (atPc base 4092) := witness_LoadImmediate

theorem witness_MoveRegister : CanAdvance (atPc base 0) ∧ CanAdvance (atPc base 4092) := witness_LoadImmediate

theorem witness_BitwiseLogic : CanAdvance (atPc base 0) ∧ CanAdvance (atPc base 4092) := witness_LoadImmediate

theorem witness_IndexArithmetic : CanAdvance (atPc base 0) ∧ CanAdvance (atPc base 4092) := witness_LoadImmediate

theorem witness_ClearScreen : CanAdvance (atPc base 0) ∧ CanAdvance (atPc base 4092) := witness_LoadImmediate

theorem witness_KeyWaitIssue : CanAdvance (atPc base 0) ∧ CanAdvance (atPc base 4092) := witness_LoadImmediate

theorem witness_TimerMoves : CanAdvance (atPc base 0) ∧ CanAdvance (atPc base 4092) := witness_LoadImmediate

theorem witness_AddWithCarry : CanAdvance (atPc base 4092) ∧ (0 : Reg) ≠ VF ∧ (14 : Reg) ≠ VF := by decide

theorem witness_SubtractBothWays : CanAdvance (atPc base 4092) ∧ (0 : Reg) ≠ VF ∧ (14 : Reg) ≠ VF :=
  witness_AddWithCarry

theorem witness_ShiftsInPlace : CanAdvance (atPc base 4092) ∧ (0 : Reg) ≠ VF ∧ (14 : Reg) ≠ VF := witness_AddWithCarry

theorem witness_RandomByteIsMasked :
    CanAdvance base ∧ ({ base with rndIn := [0xA7, 1] } : State).rndIn = 0xA7 :: [1] ∧ base.rndIn = [] := by decide

theorem witness_SetIndex : 0xFFF < 4096 ∧ CanAdvance (atPc base 4092) := by decide

theorem witness_BcdStore :
    base.mem.wf = true ∧ CanAdvance base ∧
    (80 ≤ (atI base 80).i.toNat ∧ (atI base 80).i.toNat ≤ 4093) ∧
    (80 ≤ (atI base 4093).i.toNat ∧ (atI base 4093).i.toNat ≤ 4093) ∧
    (atI base 79).i.toNat < 80 ∧ 4093 < (atI base 4094).i.toNat := by decide

theorem witness_StoreRegisters :
    base.mem.wf = true ∧ CanAdvance base ∧
    (80 ≤ (atI base 80).i.toNat ∧ (atI base 80).i.toNat + (15 : Reg).val ≤ 4095) ∧
    (80 ≤ (atI base 4080).i.toNat ∧ (atI base 4080).i.toNat + (15 : Reg).val ≤ 4095) ∧
    (atI base 79).i.toNat < 80 ∧ 4095 < (atI base 4081).i.toNat + (15 : Reg).val := by decide

theorem witness_LoadRegisters :
    CanAdvance base ∧ (atI base 0).i.toNat + (15 : Reg).val ≤ 4095 ∧ (atI base 4080).i.toNat + (15 : Reg).val ≤ 4095 ∧
    4095 < (atI base 4081).i.toNat + (15 : Reg).val := by decide

theorem witness_StoreThenLoadRestores :
    base.mem.wf = true ∧ CanAdvance base ∧ 80 ≤ (atI base 4080).i.toNat ∧
    (atI base 4080).i.toNat + (15 : Reg).val ≤ 4095 ∧ (4092 : Word).toNat % 2 = 0 ∧ (4092 : Word).toNat ≤ 4092 := by
  decide

/-- T-M24's state. -/
def storesNext : State := ((atI base 0x202).setReg 0 0x12).setReg 1 0x08

theorem witness_StoreOverNextInstructionRuns :
    storesNext.mem.wf = true ∧ CanAdvance storesNext ∧ storesNext.mode = .running ∧ storesNext.pending = [] ∧
    1 ≤ (1 : Reg).val ∧ 80 ≤ storesNext.i.toNat ∧ storesNext.i.toNat = storesNext.pc.toNat + 2 ∧
    storesNext.i.toNat + (1 : Reg).val ≤ 4095 ∧
    decodeWord (storesNext.reg 0 ++ storesNext.reg 1) = some (.jp 0x208) := by decide

theorem witness_EqualReadsEqualMemory :
    Memory.wf [(0x200, 5), (0xFFF, 1)] = true ∧
    ∀ a, Memory.read [(0x200, 5), (0xFFF, 1)] a = Memory.read (Memory.write [(0x200, 5)] 0xFFF 1) a :=
  ⟨by decide, fun _ => rfl⟩

theorem witness_SpriteDrawnCellByCell :
    CanAdvance base ∧ ((1 : Nat) ≠ 0 ∧ 4095 < (atI base 4096).i.toNat + 1 - 1) ∧
    (15 ≠ 0 ∧ 4095 < (atI base 4081 |>.setReg 0 0).i.toNat + 16 - 1) ∧
    (atI base 4081).i.toNat + 15 - 1 ≤ 4095 ∧ ((0 : Nat) = 0 ∨ (atI base 0xFFFF).i.toNat + 0 - 1 ≤ 4095) := by decide

theorem witness_DrawingTwiceErases :
    (atPc base 4090).pc.toNat % 2 = 0 ∧ (atPc base 4090).pc.toNat ≤ 4090 ∧
    (15 = 0 ∨ (atI base 4081).i.toNat + 15 - 1 ≤ 4095) ∧ (0 : Reg) ≠ VF ∧ (14 : Reg) ≠ VF := by decide

theorem witness_SkipOnKey :
    CanAdvance (atPc base 4092) ∧ ((base.setReg 0 15).reg 0).toNat < 16 ∧
    (holding base 15).keys[15] = true ∧ base.keys[15] = false ∧ (atPc base 4090).pc.toNat ≤ 4090 ∧
    (atPc base 4092).pc.toNat = 4092 ∧ 15 < ((base.setReg 0 16).reg 0).toNat := by decide

/-- A machine waiting for a key into `V3`. -/
def waiting : State := { base with mode := .waitKey, waitX := 3 }

theorem witness_KeyPressCompletesWait :
    ({ waiting with pending := [.keyDown 15] } : State).pending = .keyDown 15 :: [] ∧ waiting.mode = .waitKey ∧
    waiting.keys[15] = false ∧ waiting.pc.toNat ≤ 4092 ∧ (atPc waiting 4092).pc.toNat ≤ 4092 := by decide

theorem witness_KeyEventsOnlySetLevels :
    ({ base with pending := [.keyDown 15] } : State).pending = .keyDown 15 :: [] ∧ (holding base 15).keys[15] = true ∧
    base.keys[15] = false ∧ base.mode ≠ .waitKey ∧
    ({ base with pending := [.keyUp 0] } : State).pending = .keyUp 0 :: [] := by decide

/-- Keys 9 and 11 down. -/
def twoKeys : Vector Bool 16 := (holding (holding base 9) 11).keys

theorem witness_LevelSampleTakesLowestKey :
    waiting.mode = .waitKey ∧ twoKeys[9] = true ∧ waiting.keys[9] = false ∧
    (∀ j : Key, j < 9 → ¬(twoKeys[j.val] = true ∧ waiting.keys[j.val] = false)) ∧
    (∀ j : Key, ¬(base.keys[j.val] = true ∧ waiting.keys[j.val] = false)) := by decide

theorem witness_TimersCountDownToZero :
    ({ base with pending := [.tick] } : State).pending = .tick :: [] ∧ base.mode = .running ∧ waiting.mode = .waitKey ∧
    State.reset.mode = .stopped ∧ ({ base with mode := .faulted } : State).mode = .faulted := by decide

theorem witness_UnansweredWaitOnlyRunsTimersOut :
    ({ waiting with dt := 255 } : State).mode = .waitKey ∧
    (∀ (_ : Nat) (k : Key), Transition.tick ≠ .keyDown k ∧ Transition.tick ≠ .reset) ∧
    FairToTimers (fun _ => .tick) { waiting with dt := 255 } :=
  ⟨rfl, fun _ _ => ⟨nofun, nofun⟩, fun n _ => ⟨n, Nat.le_refl n, rfl⟩⟩

theorem witness_OutputsTheHostReads :
    State.reset.mode = .stopped ∧ base.mode = .running ∧ waiting.mode = .waitKey ∧
    (faultedWith .stackUnderflow 0x00EE base).mode = .faulted ∧ base.fkind = none ∧
    (faultedWith .invalidOpcode 0 base).fkind = some .invalidOpcode ∧
    (faultedWith .stackOverflow 0 base).fkind = some .stackOverflow ∧
    (faultedWith .stackUnderflow 0 base).fkind = some .stackUnderflow ∧
    (faultedWith .outOfBoundsAccess 0 base).fkind = some .outOfBoundsAccess := by decide

theorem witness_ResetRestoresEverything :
    ({ faultedWith .stackOverflow 0x2200 base with pending := [.reset, .start] } : State).pending =
      .reset :: [.start] := by decide

theorem witness_LoadCopiesImage :
    base.mem.wf = true ∧ ({ base with pending := [.load [1]] } : State).pending = .load [1] :: [] ∧
    base.mode ≠ .stopped ∧ State.reset.mode = .stopped ∧ 3584 < (List.replicate 3585 (0 : Byte)).length ∧
    (List.replicate 3584 (0 : Byte)).length ≤ 3584 ∧ ([] : List Byte).length ≤ 3584 := by
  simp only [List.length_replicate]; decide

theorem witness_StartOnlyFromStopped :
    ({ State.reset with pending := [.start] } : State).pending = .start :: [] ∧ State.reset.mode = .stopped ∧
    base.mode ≠ .stopped := by decide

theorem witness_BootReachesFirstInstruction :
    ({ waiting with pending := [.reset, .load [0x00, 0xE0], .start] } : State).pending =
      [.reset, .load [0x00, 0xE0], .start] ∧ ([0x00, 0xE0] : List Byte).length ≤ 3584 ∧
    decodeBytes [0x00, 0xE0] = .ok (.cls, []) := ⟨rfl, by decide, rfl⟩

theorem reset_meets_inv : Inv State.reset where
  pcEven := by decide
  pcLow := by decide
  font := fun a h => by show Memory.background a = _; simp [Memory.background, h]
  fault := by decide
  returns := fun k _ hk => absurd hk (Nat.not_lt_zero k)
  memory := by decide
  waitRoom := by decide
  waitWord := by decide

theorem witness_StepKeepsInvariants :
    Inv State.reset ∧ step State.reset = .next State.reset := ⟨reset_meets_inv, rfl⟩

theorem witness_ModeTransitions :
    nextIs (step { State.reset with pending := [.start] })
      (fun t => decide (t.mode ≠ State.reset.mode)) = true ∧
    nextIs (step { base with pending := [.reset] }) (fun t => decide (t.mode ≠ base.mode)) = true ∧
    nextIs (step base) (fun t => decide (t.mode ≠ base.mode)) = true ∧
    nextIs (step { waiting with pending := [.keyDown 0] }) (fun t => decide (t.mode ≠ waiting.mode)) = true := by decide

theorem witness_FaultedStateIsFrozen :
    ∃ s t : State, s.mode = .faulted ∧ s.pending = .keyDown 3 :: [] ∧ Transition.keyDown 3 ≠ .reset ∧ step s = .next t :=
  ⟨{ faultedWith .invalidOpcode 0 base with pending := [.keyDown 3] }, _, rfl, rfl, by decide, rfl⟩

theorem witness_StaleStackSlotsUnobservable :
    ∀ k (h : k < 16), k < (oneEntry 0x202).sp.val →
      ((oneEntry 0x202).stack.set 1 0xFFFF)[k] = (oneEntry 0x202).stack[k] := by decide

/-- T-C3's state. -/
theorem witness_SettledStateStays : Settled lastWord ∧ lastWord.pending = [] := by decide

end Sys2Proof.Tests
end

section
/-!
PROOFS. Control flow (spec/40_control_flow.md): the encoding of format XIMM as the spec writes it, and the skips on an
immediate.
-/
namespace Sys2Proof.Proofs
open Sys2Proof.Machine Sys2Proof.Laws

/-- The spec's `c<<12 | x<<8 | nn` is the encoder's word of format XIMM: the fields do not overlap, so `|||` adds. -/
theorem encXImm_eq_wordXImm {c : Nat} (hc : c < 16) (x : Reg) (nn : Byte) :
    encXImm (BitVec.ofNat 16 (4096 * c)) x nn = wordXImm c x nn := by
  have hx : 256 * x.val < 2 ^ 12 := by have := x.isLt; omega
  have hn : nn.toNat < 2 ^ 8 := nn.isLt
  have hclass : 4096 * c ||| 256 * x.val = 4096 * c + 256 * x.val := (Nat.two_pow_add_eq_or_of_lt hx c).symm
  have himm : 256 * (16 * c + x.val) ||| nn.toNat = 256 * (16 * c + x.val) + nn.toNat :=
    (Nat.two_pow_add_eq_or_of_lt hn _).symm
  apply BitVec.eq_of_toNat_eq
  calc (encXImm (BitVec.ofNat 16 (4096 * c)) x nn).toNat
      = 4096 * c ||| 256 * x.val ||| nn.toNat := by
        simp only [BitVec.toNat_or, BitVec.toNat_shiftLeft, BitVec.toNat_ofNat, BitVec.toNat_setWidth,
          Nat.shiftLeft_eq]
        congr 2 <;> omega
    _ = c * 4096 + (x.val * 256 + nn.toNat) := by
        rw [hclass, show 4096 * c + 256 * x.val = 256 * (16 * c + x.val) by omega, himm]; omega
    _ = (wordXImm c x nn).toNat := by
        rw [wordXImm, wordOf, BitVec.toNat_ofNat, Nat.mod_eq_of_lt (by omega)]

/-- A skip that is taken goes on to `PC + 4` (R101), where that is legal. -/
theorem commit_skipIf_true {s : State} (ins : Instr) (h : CanAdvance s) (h4 : s.pc.toNat ≤ 4090) :
    commit ins s (skipIf s true) = .next (s.setPc (s.pc.toNat + 4)) :=
  commit_ok ins s s (npc := s.pc.toNat + 4) ⟨by omega, by omega⟩

/-- A skip that is not taken goes on to `PC + 2` (R101), as an instruction that writes nothing. -/
theorem commit_skipIf_false {s : State} (ins : Instr) (h : CanAdvance s) :
    commit ins s (skipIf s false) = .next (s.setPc (s.pc.toNat + 2)) :=
  commit_advance ins s h

theorem decodeWord_encXImm_seImm (x : Reg) (nn : Byte) : decodeWord (encXImm 0x3000 x nn) = some (.seImm x nn) :=
  (congrArg decodeWord (encXImm_eq_wordXImm (c := 3) (by decide) x nn)).trans (WordRoundTrip.seImm x nn rfl)

theorem decodeWord_encXImm_sneImm (x : Reg) (nn : Byte) : decodeWord (encXImm 0x4000 x nn) = some (.sneImm x nn) :=
  (congrArg decodeWord (encXImm_eq_wordXImm (c := 4) (by decide) x nn)).trans (WordRoundTrip.sneImm x nn rfl)

/-- 3XNN is a skip taken when `V[x] = nn` (R107). -/
theorem exec_seImm_of_eq {s : State} {x : Reg} {nn : Byte} (h : s.reg x = nn) :
    exec (.seImm x nn) s = commit (.seImm x nn) s (skipIf s true) := by
  rw [exec_seImm, execSeImm, beq_iff_eq.2 h]

theorem exec_seImm_of_ne {s : State} {x : Reg} {nn : Byte} (h : s.reg x ≠ nn) :
    exec (.seImm x nn) s = commit (.seImm x nn) s (skipIf s false) := by
  rw [exec_seImm, execSeImm, beq_false_of_ne h]

/-- 4XNN is a skip taken when `V[x] ≠ nn` (R108). -/
theorem exec_sneImm_of_ne {s : State} {x : Reg} {nn : Byte} (h : s.reg x ≠ nn) :
    exec (.sneImm x nn) s = commit (.sneImm x nn) s (skipIf s true) := by
  rw [exec_sneImm, execSneImm, bne_iff_ne.2 h]

theorem exec_sneImm_of_eq {s : State} {x : Reg} {nn : Byte} (h : s.reg x = nn) :
    exec (.sneImm x nn) s = commit (.sneImm x nn) s (skipIf s false) := by
  rw [exec_sneImm, execSneImm, h, bne_self_eq_false]

/-- Settles O21: each of the two words is a skip whose condition is the comparison of `V[x]` with `nn`, and a skip
moves `PC` only. -/
theorem skipOnImmediate : Obligations.SkipOnImmediate := by
  intro x nn s hs
  refine ⟨decodeWord_encXImm_seImm x nn, decodeWord_encXImm_sneImm x nn, fun heq => ⟨fun h4 => ?_, ?_⟩,
    fun hne => ⟨fun h4 => ?_, ?_⟩⟩
  · exact (exec_seImm_of_eq heq).trans (commit_skipIf_true _ hs h4)
  · exact (exec_sneImm_of_eq heq).trans (commit_skipIf_false _ hs)
  · exact (exec_sneImm_of_ne hne).trans (commit_skipIf_true _ hs h4)
  · exact (exec_seImm_of_ne hne).trans (commit_skipIf_false _ hs)

end Sys2Proof.Proofs
end

section
/-!
PROOFS. Moves and sums of one register (spec/41_alu.md R121 to R123): the encoding of format XY as the spec writes it,
and what an instruction that writes one register and goes on to `PC + 2` leaves behind.
-/
namespace Sys2Proof.Proofs
open Sys2Proof.Machine Sys2Proof.Laws

/-! ### The words -/

/-- Format XY is format XIMM with the immediate `y<<4` (R72): the low four bits are free. -/
theorem encXY_eq_encXImm (c : Word) (x y : Reg) : encXY c x y = encXImm c x (BitVec.ofNat 8 (16 * y.val)) := by
  have hy : BitVec.ofNat 16 y.val <<< 4 = (BitVec.ofNat 8 (16 * y.val)).setWidth 16 := by
    apply BitVec.eq_of_toNat_eq
    simp only [BitVec.toNat_shiftLeft, BitVec.toNat_ofNat, BitVec.toNat_setWidth, Nat.shiftLeft_eq]
    omega
  rw [encXY, hy]

theorem wordXImm_eq_wordXYN_zero (c : Nat) (x y : Reg) :
    wordXImm c x (BitVec.ofNat 8 (16 * y.val)) = wordXYN c x y 0 := by
  rw [wordXImm, wordXYN, BitVec.toNat_ofNat, Nat.mod_eq_of_lt (by omega), Nat.add_zero, Nat.mul_comm 16]

/-- The spec's `c<<12 | x<<8 | y<<4` is the encoder's word of format XY. -/
theorem encXY_eq_wordXYN {c : Nat} (hc : c < 16) (x y : Reg) :
    encXY (BitVec.ofNat 16 (4096 * c)) x y = wordXYN c x y 0 := by
  rw [encXY_eq_encXImm, encXImm_eq_wordXImm hc, wordXImm_eq_wordXYN_zero]

theorem decodeWord_encXImm_ldImm (x : Reg) (nn : Byte) : decodeWord (encXImm 0x6000 x nn) = some (.ldImm x nn) :=
  (congrArg decodeWord (encXImm_eq_wordXImm (c := 6) (by decide) x nn)).trans (WordRoundTrip.ldImm x nn rfl)

theorem decodeWord_encXImm_addImm (x : Reg) (nn : Byte) : decodeWord (encXImm 0x7000 x nn) = some (.addImm x nn) :=
  (congrArg decodeWord (encXImm_eq_wordXImm (c := 7) (by decide) x nn)).trans (WordRoundTrip.addImm x nn rfl)

theorem decodeWord_encXY_ldReg (x y : Reg) : decodeWord (encXY 0x8000 x y) = some (.ldReg x y) :=
  (congrArg decodeWord (encXY_eq_wordXYN (c := 8) (by decide) x y)).trans (WordRoundTrip.ldReg x y rfl)

/-! ### One register written -/

/-- Writing `V[x]` and `PC` leaves everything else as it was. -/
theorem onlyRegs_setReg_setPc (s : State) (x : Reg) (b : Byte) (npc : Nat) :
    OnlyRegs [x] s ((s.setReg x b).setPc npc) := by
  have hregs : SameRegsBut [x] s ((s.setReg x b).setPc npc) := fun r hr =>
    (State.setReg_reg s x b r).trans (if_neg fun h => hr (List.mem_singleton.2 h))
  exact ⟨hregs, fun _ => rfl, rfl, ⟨rfl, rfl⟩, ⟨rfl, rfl⟩, rfl, rfl, ⟨rfl, rfl, rfl, rfl, rfl⟩, rfl, rfl, rfl⟩

/-- An instruction whose only write is `V[x] <- b` completes from a `PC` that can advance (R100, R102). -/
theorem commit_advance_setReg {s : State} (ins : Instr) (x : Reg) (b : Byte) (hs : CanAdvance s) :
    ∃ t, commit ins s (advance s (s.setReg x b)) = .next t ∧ t.reg x = b ∧ t.pc.toNat = s.pc.toNat + 2 ∧
      OnlyRegs [x] s t := by
  refine ⟨_, commit_advance ins (s.setReg x b) hs, ?_, ?_, onlyRegs_setReg_setPc s x b _⟩
  · rw [State.setPc_reg, State.setReg_reg, if_pos rfl]
  · rw [State.setPc_pc, BitVec.toNat_ofNat, Nat.mod_eq_of_lt (by omega)]

/-- The 8-bit sum is the unbounded sum mod 256 (R120, R122). -/
theorem toNat_addResult (a b : Byte) : (addResult a b).toNat = (a.toNat + b.toNat) % 256 :=
  BitVec.toNat_ofNat _ _

/-! ### The obligations -/

/-- Settles O23: 6XNN writes one register, with `nn`. -/
theorem loadImmediate : Obligations.LoadImmediate := by
  intro x nn s hs
  rw [exec_ldImm, execLdImm]
  exact ⟨decodeWord_encXImm_ldImm x nn, commit_advance_setReg _ x nn hs⟩

/-- Settles O24: 7XNN writes one register, with the 8-bit sum; no flag is among its writes. -/
theorem addImmediate : Obligations.AddImmediate := by
  intro x nn s hs
  obtain ⟨t, ht, hreg, hpc, hframe⟩ := commit_advance_setReg (.addImm x nn) x (addResult (s.reg x) nn) hs
  have hsum : (t.reg x).toNat = ((s.reg x).toNat + nn.toNat) % 256 := by rw [hreg, toNat_addResult]
  exact ⟨decodeWord_encXImm_addImm x nn, t, (exec_addImm x nn s).trans ht, hsum, hpc, hframe⟩

/-- Settles O25: 8XY0 writes one register, with `V[y]` read before the instruction. -/
theorem moveRegister : Obligations.MoveRegister := by
  intro x y s hs
  rw [exec_ldReg, execLdReg]
  exact ⟨decodeWord_encXY_ldReg x y, commit_advance_setReg _ x (s.reg y) hs⟩

end Sys2Proof.Proofs
end

section
/-!
PROOFS. The index register and register loads (spec/42_index_memory.md R140, R145): the encodings of formats ADDR and
XSEL as the spec writes them, the two answers of a memory read, and what writing a group of registers leaves behind.
-/
namespace Sys2Proof.Proofs
open Sys2Proof.Machine Sys2Proof.Laws

/-! ### The words -/

/-- The spec's `c<<12 | nnn` is the encoder's word of format ADDR: the fields do not overlap, so `|||` adds. -/
theorem encAddr_eq_wordOf (c : Nat) {nnn : Nat} (h : nnn < 4096) :
    encAddr (BitVec.ofNat 16 (4096 * c)) nnn = wordOf c nnn := by
  have hadd : 4096 * c ||| nnn = 4096 * c + nnn := (Nat.two_pow_add_eq_or_of_lt (i := 12) h c).symm
  rw [encAddr, wordOf, ← BitVec.ofNat_or, hadd, Nat.mul_comm]

theorem decodeWord_encAddr_ldI {nnn : Nat} (h : nnn < 4096) : decodeWord (encAddr 0xA000 nnn) = some (.ldI nnn) :=
  (congrArg decodeWord (encAddr_eq_wordOf 10 h)).trans
    (WordRoundTrip.ldI nnn (decide_eq_true h))

/-- Format XSEL is format XIMM with the selector for its immediate (R72). -/
theorem encX_eq_encXImm (c : Word) (x : Reg) (sel : Byte) :
    encX (c ||| sel.setWidth 16) x = encXImm c x sel := by
  rw [encX, encXImm, BitVec.or_assoc, BitVec.or_comm (sel.setWidth 16), BitVec.or_assoc]

/-- The spec's `c<<12 | sel | x<<8` is the encoder's word of format XSEL. -/
theorem encX_eq_wordXSel {c : Nat} (hc : c < 16) (x : Reg) (sel : Byte) :
    encX (BitVec.ofNat 16 (4096 * c) ||| sel.setWidth 16) x = wordXSel c x sel.toNat :=
  (encX_eq_encXImm _ x sel).trans (encXImm_eq_wordXImm hc x sel)

theorem decodeWord_encX_loadRegs (x : Reg) : decodeWord (encX 0xF065 x) = some (.loadRegs x) :=
  (congrArg decodeWord (encX_eq_wordXSel (c := 15) (by decide) x 0x65)).trans (WordRoundTrip.loadRegs x rfl)

/-! ### Reading a range of memory -/

/-- A range that ends at 4095 or below is read whole (20_memory.md R54). -/
theorem memRead_ok {s : State} {a n : Nat} (h : a + n ≤ 4096) :
    memRead s a n = .ok ((List.range n).map fun k => s.readByte (a + k)) :=
  ((memRead_cases s a n).resolve_left fun ⟨_, _, hpast⟩ => by omega).1

/-- A range of at least one byte that passes 4095 is not read at all (R54). -/
theorem memRead_error {s : State} {a n : Nat} (hn : 1 ≤ n) (h : 4096 < a + n) :
    memRead s a n = .error .outOfBoundsAccess :=
  ((memRead_cases s a n).resolve_right fun ⟨_, hfits⟩ => by omega).1

/-! ### Writing a group of registers -/

/-- Writing `V` and `PC` leaves everything that is neither as it was. -/
theorem frame_setRegs_setPc (s : State) (k npc : Nat) (bs : List Byte) :
    SameMemory s ((s.setRegs k bs).setPc npc) ∧ SameIndex s ((s.setRegs k bs).setPc npc) ∧
      SameStack s ((s.setRegs k bs).setPc npc) ∧ SameTimers s ((s.setRegs k bs).setPc npc) ∧
      SameDisplay s ((s.setRegs k bs).setPc npc) ∧ SameKeys s ((s.setRegs k bs).setPc npc) ∧
      SameControl s ((s.setRegs k bs).setPc npc) ∧ SameInputs s ((s.setRegs k bs).setPc npc) := by
  rw [State.setRegs_frame]
  exact ⟨fun _ => rfl, rfl, ⟨rfl, rfl⟩, ⟨rfl, rfl⟩, rfl, rfl, ⟨rfl, rfl, rfl, rfl, rfl⟩, rfl, rfl, rfl⟩

/-- With `n` values written from `V[0]` on, register `r` holds the `r`-th of them if there is one. -/
theorem setRegs_zero_map_range_reg (s : State) (n : Nat) (f : Nat → Byte) (r : Reg) :
    (s.setRegs 0 ((List.range n).map f)).reg r = if r.val < n then f r.val else s.reg r := by
  rw [State.setRegs_reg, if_pos (Nat.zero_le _), Nat.sub_zero, List.getElem?_map]
  by_cases h : r.val < n
  · rw [List.getElem?_range h, if_pos h]; rfl
  · rw [List.getElem?_eq_none (by simpa using h), if_neg h]; rfl

/-! ### The meanings of the two instructions, where they complete -/

theorem toNat_addrWord {nnn : Nat} (h : nnn < 4096) : (addrWord nnn).toNat = nnn := by
  rw [addrWord, BitVec.toNat_ofNat, Nat.mod_eq_of_lt (by omega)]

/-- The advanced program counter does not wrap. -/
theorem toNat_setPc_advance {s : State} (w : State) (hs : CanAdvance s) :
    (w.setPc (s.pc.toNat + 2)).pc.toNat = s.pc.toNat + 2 := by
  rw [State.setPc_pc, BitVec.toNat_ofNat, Nat.mod_eq_of_lt (by omega)]

theorem exec_ldI_eq {s : State} (nnn : Nat) (hs : CanAdvance s) :
    exec (.ldI nnn) s = .next ((s.setI (addrWord nnn)).setPc (s.pc.toNat + 2)) :=
  commit_advance _ _ hs

/-- FX65 within memory (R145): one group write of the bytes read. -/
theorem exec_loadRegs_of_le {s : State} {x : Reg} (hs : CanAdvance s) (h : s.i.toNat + x.val ≤ 4095) :
    exec (.loadRegs x) s =
      .next ((s.setRegs 0 ((List.range (x.val + 1)).map fun k => s.readByte (s.i.toNat + k))).setPc
        (s.pc.toNat + 2)) := by
  rw [exec_loadRegs, execLoadRegs, dataAddress, memRead_ok (by omega)]
  exact commit_advance _ _ hs

/-- FX65 past the end of memory (R145): the fault is entered from the state before the instruction. -/
theorem exec_loadRegs_of_gt {s : State} {x : Reg} (h : 4095 < s.i.toNat + x.val) :
    exec (.loadRegs x) s = .next (takeFault .outOfBoundsAccess (encode (.loadRegs x)) s) := by
  rw [exec_loadRegs, execLoadRegs, dataAddress, memRead_error (by omega) (by omega)]
  exact commit_error _ s _

/-! ### The obligations -/

/-- Settles O35: FX65 is one group write from `V[0]` on of bytes that are all checked first, so the registers up to
`V[x]` hold them and a failed check leaves every register. -/
theorem loadRegisters : Obligations.LoadRegisters := by
  intro x s hs
  refine ⟨decodeWord_encX_loadRegs x, fun hle => ?_, fun hgt => ?_⟩
  · refine ⟨_, exec_loadRegs_of_le hs hle, fun r hr => ?_, fun r hr => ?_, toNat_setPc_advance _ hs,
      frame_setRegs_setPc s 0 _ _⟩
    · rw [State.setPc_reg, setRegs_zero_map_range_reg, if_pos (Nat.lt_succ_of_le hr)]
    · rw [State.setPc_reg, setRegs_zero_map_range_reg, if_neg (Nat.not_lt_of_le hr)]
  · exact ⟨_, exec_loadRegs_of_gt hgt, rfl, rfl, fun _ _ => rfl⟩

/-- Settles O31: ANNN writes `I` and `PC` only, and a 12-bit address fits `I`. -/
theorem setIndex : Obligations.SetIndex := by
  intro nnn s h hs
  exact ⟨decodeWord_encAddr_ldI h, _, exec_ldI_eq nnn hs, toNat_addrWord h, toNat_setPc_advance _ hs,
    fun _ _ => rfl, fun _ => rfl, ⟨rfl, rfl⟩, ⟨rfl, rfl⟩, rfl, rfl, ⟨rfl, rfl, rfl, rfl, rfl⟩, rfl, rfl, rfl⟩

end Sys2Proof.Proofs
end

section
/-!
PROOFS. The display (spec/43_display.md R161): what clearing it writes and what it leaves behind.
-/
namespace Sys2Proof.Proofs
open Sys2Proof.Machine Sys2Proof.Laws

/-- Writing `PC` and the display leaves everything that is neither as it was. -/
theorem frame_setDisp_setPc (s : State) (d : Screen) (npc : Nat) :
    let t := ({ s with disp := d } : State).setPc npc
    SameRegsBut [] s t ∧ SameMemory s t ∧ SameIndex s t ∧ SameStack s t ∧ SameTimers s t ∧ SameKeys s t ∧
      SameControl s t ∧ SameInputs s t :=
  ⟨fun _ _ => rfl, fun _ => rfl, rfl, ⟨rfl, rfl⟩, ⟨rfl, rfl⟩, rfl, ⟨rfl, rfl, rfl, rfl, rfl⟩, rfl, rfl, rfl⟩

/-- 00E0 writes the blank screen and goes on to `PC + 2` (R100, R161). -/
theorem exec_cls_eq {s : State} (hs : CanAdvance s) :
    exec .cls s = .next (({ s with disp := Screen.blank } : State).setPc (s.pc.toNat + 2)) :=
  commit_advance _ _ hs

theorem decodeWord_cls : decodeWord 0x00E0 = some .cls :=
  WordRoundTrip.cls rfl

/-- Settles O39: 00E0 writes the blank screen, whose cells are all off, and `PC`; `VF` is not among its writes. -/
theorem clearScreen : Obligations.ClearScreen := fun _ hs =>
  ⟨decodeWord_cls, _, exec_cls_eq hs, fun row col _ _ => Screen.blank_lit row col, toNat_setPc_advance _ hs,
    frame_setDisp_setPc _ _ _⟩

end Sys2Proof.Proofs
end

section
/-!
PROOFS. The decoder against the encoder and the table (spec/30_encoding.md R70 to R77): the byte order, the word put
together again from its fields, and the rows a word matches, told from its fields.
-/
namespace Sys2Proof.Proofs
open Sys2Proof.Machine Sys2Proof.Laws

/-! ### Decoding what was encoded -/

/-- The two bytes of a word, read high byte first, are the word (20_memory.md R53). -/
theorem wordOfBytes_slices (op : Word) :
    wordOfBytes (BitVec.ofNat 8 (slice op 15 8)) (BitVec.ofNat 8 (slice op 7 0)) = op := by
  have hop := op.isLt
  apply BitVec.eq_of_toNat_eq
  simp only [wordOfBytes, slice, BitVec.toNat_append, BitVec.toNat_ofNat, Nat.shiftLeft_eq, Nat.mul_comm _ (2 ^ 8)]
  rw [← Nat.two_pow_add_eq_or_of_lt (Nat.mod_lt _ (by decide))]
  omega

theorem decodeBytes_wordBytes {op : Word} {i : Instr} (h : decodeWord op = some i) (rest : List Byte) :
    decodeBytes (wordBytes op ++ rest) = .ok (i, rest) := by
  simp only [wordBytes, decodeBytes, List.cons_append, List.nil_append, wordOfBytes_slices, h]

/-- The word of every well-formed instruction decodes to it: one law per row of R75. -/
theorem decodeWord_encode : ∀ i : Instr, WordRoundTrip.Statement i
  | .cls => WordRoundTrip.cls
  | .ret => WordRoundTrip.ret
  | .jp nnn => WordRoundTrip.jp nnn
  | .call nnn => WordRoundTrip.call nnn
  | .seImm x nn => WordRoundTrip.seImm x nn
  | .sneImm x nn => WordRoundTrip.sneImm x nn
  | .seReg x y => WordRoundTrip.seReg x y
  | .ldImm x nn => WordRoundTrip.ldImm x nn
  | .addImm x nn => WordRoundTrip.addImm x nn
  | .ldReg x y => WordRoundTrip.ldReg x y
  | .orReg x y => WordRoundTrip.orReg x y
  | .andReg x y => WordRoundTrip.andReg x y
  | .xorReg x y => WordRoundTrip.xorReg x y
  | .addReg x y => WordRoundTrip.addReg x y
  | .subReg x y => WordRoundTrip.subReg x y
  | .shr x y => WordRoundTrip.shr x y
  | .subnReg x y => WordRoundTrip.subnReg x y
  | .shl x y => WordRoundTrip.shl x y
  | .sneReg x y => WordRoundTrip.sneReg x y
  | .ldI nnn => WordRoundTrip.ldI nnn
  | .jpV0 nnn => WordRoundTrip.jpV0 nnn
  | .rnd x nn => WordRoundTrip.rnd x nn
  | .drw x y n => WordRoundTrip.drw x y n
  | .skp x => WordRoundTrip.skp x
  | .sknp x => WordRoundTrip.sknp x
  | .ldVxDt x => WordRoundTrip.ldVxDt x
  | .ldVxKey x => WordRoundTrip.ldVxKey x
  | .ldDtVx x => WordRoundTrip.ldDtVx x
  | .ldStVx x => WordRoundTrip.ldStVx x
  | .addI x => WordRoundTrip.addI x
  | .ldFont x => WordRoundTrip.ldFont x
  | .ldBcd x => WordRoundTrip.ldBcd x
  | .storeRegs x => WordRoundTrip.storeRegs x
  | .loadRegs x => WordRoundTrip.loadRegs x

/-- Settles O3: the two bytes of an encoding give back its word, and the word of each row decodes to its instruction. -/
theorem decodeOfEncodedBytes : Obligations.DecodeOfEncodedBytes := fun i hwf rest =>
  decodeBytes_wordBytes (decodeWord_encode i hwf) rest

/-- Settles O1: each word is a closed case of the decoder. -/
theorem writtenOutWordsDecode : Obligations.WrittenOutWordsDecode := by
  unfold Obligations.WrittenOutWordsDecode
  decide

/-! ### A word from its fields -/

/-- The fields in numbers, and how `nn` and `nnn` overlap the others (R71). -/
theorem fields_overlap (op : Word) :
    (fields op).nn.toNat = 16 * (fields op).y.val + (fields op).n ∧
      (fields op).nnn = 256 * (fields op).x.val + (fields op).nn.toNat ∧
      op.toNat = 4096 * (fields op).cls + (fields op).nnn := by
  have hop := op.isLt
  simp only [fields, slice, Fin.val_ofNat, BitVec.toNat_ofNat]
  omega

theorem fields_lt (op : Word) : (fields op).cls < 16 ∧ (fields op).n < 16 ∧ (fields op).nnn < 4096 := by
  simp only [fields, slice]
  omega

/-- Settles O2: a slice is the bit vector's own extraction, read as a number. -/
theorem fieldSplitOfEveryWord : Obligations.FieldSplitOfEveryWord := by
  intro op
  obtain ⟨hnn, hnnn, _⟩ := fields_overlap op
  refine ⟨?_, ?_, ?_, ?_, BitVec.eq_of_toNat_eq ?_, ?_, hnn, by rw [hnnn, hnn, Nat.add_assoc]⟩ <;>
    simp [fields, slice, BitVec.extractLsb'_toNat, Nat.shiftRight_eq_div_pow]

/-! ### Encoding what was decoded -/

/-- Every word is put together again from its class and the low 12 bits (R72). -/
theorem wordOf_fields (op : Word) : wordOf (fields op).cls (fields op).nnn = op := by
  apply BitVec.eq_of_toNat_eq
  rw [wordOf, BitVec.toNat_ofNat, Nat.mul_comm, ← (fields_overlap op).2.2, Nat.mod_eq_of_lt op.isLt]

theorem wordXImm_fields (op : Word) : wordXImm (fields op).cls (fields op).x (fields op).nn = op := by
  rw [wordXImm, Nat.mul_comm, ← (fields_overlap op).2.1, wordOf_fields]

theorem wordXYN_fields (op : Word) : wordXYN (fields op).cls (fields op).x (fields op).y (fields op).n = op := by
  rw [wordXYN, Nat.mul_comm, Nat.add_assoc, Nat.mul_comm _ 16, ← (fields_overlap op).1, ← (fields_overlap op).2.1,
    wordOf_fields]

theorem wordXSel_fields (op : Word) : wordXSel (fields op).cls (fields op).x (fields op).nn.toNat = op :=
  wordXImm_fields op

theorem encode_of_selectAlu {op : Word} {i : Instr} (hc : (fields op).cls = 8)
    (h : selectAlu (fields op).x (fields op).y (fields op).n = some i) : encode i = op ∧ i.wellFormed = true := by
  have hop := wordXYN_fields op
  rw [hc] at hop
  unfold selectAlu at h
  split at h
  case h_10 => cases h
  all_goals
    next hn =>
    cases h
    rw [hn] at hop
    exact ⟨hop, rfl⟩

theorem encode_of_selectMisc {op : Word} {i : Instr} (hc : (fields op).cls = 15)
    (h : selectMisc (fields op).x (fields op).nn = some i) : encode i = op ∧ i.wellFormed = true := by
  have hop := wordXSel_fields op
  rw [hc] at hop
  unfold selectMisc at h
  iterate 9
    split at h
    · next hn =>
      cases h
      rw [hn] at hop
      exact ⟨hop, rfl⟩
  cases h

theorem encode_of_select {op : Word} {i : Instr} (h : select (fields op) = some i) :
    encode i = op ∧ i.wellFormed = true := by
  have haddr := wordOf_fields op
  have himm := wordXImm_fields op
  have hxyn := wordXYN_fields op
  have hsel := wordXSel_fields op
  have hnnn : addrInRange (fields op).nnn = true := decide_eq_true (fields_lt op).2.2
  have hcount : countInRange (fields op).n = true := decide_eq_true (fields_lt op).2.1
  unfold select at h
  split at h
  case h_17 => cases h
  all_goals rename_i hc; rw [hc] at haddr himm hxyn hsel
  case h_1 =>
    split at h
    · next hn => cases h; rw [hn] at haddr; exact ⟨haddr, rfl⟩
    · split at h
      · next hn => cases h; rw [hn] at haddr; exact ⟨haddr, rfl⟩
      · cases h
  case h_2 | h_3 | h_11 | h_12 => cases h; exact ⟨haddr, hnnn⟩
  case h_4 | h_5 | h_7 | h_8 | h_13 => cases h; exact ⟨himm, rfl⟩
  case h_6 | h_10 =>
    split at h
    · next hn => cases h; rw [hn] at hxyn; exact ⟨hxyn, rfl⟩
    · cases h
  case h_9 => exact encode_of_selectAlu hc h
  case h_14 => cases h; exact ⟨hxyn, hcount⟩
  case h_15 =>
    split at h
    · next hn => cases h; rw [hn] at hsel; exact ⟨hsel, rfl⟩
    · split at h
      · next hn => cases h; rw [hn] at hsel; exact ⟨hsel, rfl⟩
      · cases h
  case h_16 => exact encode_of_selectMisc hc h

/-- Settles O4: each row that the decoder selects fixes the class and the selector, and the operands are the rest of
the word. -/
theorem encodeOfDecodedWord : Obligations.EncodeOfDecodedWord := fun _ _ h => encode_of_select h

/-! ### The rows a word matches -/

theorem matchesWord_iff (r : OpcodeRow) (op : Word) :
    r.matchesWord op = true ↔ (op &&& r.mask).toNat = r.value.toNat := by
  rw [OpcodeRow.matchesWord, beq_iff_eq, BitVec.toNat_eq]

/-- Masking splits at any bit. -/
theorem and_split (a b k : Nat) : a &&& b = 2 ^ k * (a / 2 ^ k &&& b / 2 ^ k) + (a % 2 ^ k &&& b % 2 ^ k) := by
  rw [← Nat.and_div_two_pow, ← Nat.and_mod_two_pow, Nat.div_add_mod]

/-- The mask of formats ADDR, XIMM and XYN keeps the class. -/
theorem toNat_and_class (op : Word) : (op &&& 0xF000).toNat = 4096 * (fields op).cls := by
  rw [BitVec.toNat_and, and_split _ _ 12]
  simp [fields, slice, Nat.and_two_pow_sub_one_eq_mod _ 4]

/-- The mask of format XY keeps the class and the low nibble. -/
theorem toNat_and_class_n (op : Word) : (op &&& 0xF00F).toNat = 4096 * (fields op).cls + (fields op).n := by
  rw [BitVec.toNat_and, and_split _ _ 12]
  simp [fields, slice, Nat.and_two_pow_sub_one_eq_mod _ 4]

/-- The mask of format XSEL keeps the class and the low byte. -/
theorem toNat_and_class_nn (op : Word) :
    (op &&& 0xF0FF).toNat = 4096 * (fields op).cls + (fields op).nn.toNat := by
  rw [BitVec.toNat_and, and_split _ _ 12]
  simp [fields, slice, Nat.and_two_pow_sub_one_eq_mod _ 4, Nat.and_two_pow_sub_one_eq_mod _ 8]

/-- The mask of the two fixed rows keeps the word. -/
theorem toNat_and_all (op : Word) : (op &&& 0xFFFF).toNat = 4096 * (fields op).cls + (fields op).nnn := by
  rw [show (0xFFFF : Word) = BitVec.allOnes 16 from rfl, BitVec.and_allOnes]
  exact (fields_overlap op).2.2

theorem selectAlu_eq_none {x y : Reg} {n : Nat} (h : selectAlu x y n = none) : 7 < n ∧ n ≠ 14 := by
  constructor
  · by_contra hle
    have : n ≤ 7 := Nat.le_of_not_lt hle
    interval_cases n <;> cases h
  · rintro rfl
    cases h

theorem selectMisc_eq_none {x : Reg} {nn : Byte} (h : selectMisc x nn = none) :
    nn.toNat ∉ [0x07, 0x0A, 0x15, 0x18, 0x1E, 0x29, 0x33, 0x55, 0x65] := by
  intro hmem
  have hnn : nn ∈ ([0x07, 0x0A, 0x15, 0x18, 0x1E, 0x29, 0x33, 0x55, 0x65] : List Byte) := by
    simpa [BitVec.toNat_eq] using hmem
  simp only [List.mem_cons, List.not_mem_nil, or_false] at hnn
  rcases hnn with rfl | rfl | rfl | rfl | rfl | rfl | rfl | rfl | rfl <;> cases h

/-- A word of no row matches none: its class has no row, or the row's selector is another one. -/
theorem matchesWord_of_select_none {op : Word} (h : select (fields op) = none) :
    ∀ r ∈ opcodeRows, r.matchesWord op = false := by
  obtain ⟨hcls, hn, hnnn⟩ := fields_lt op
  have hnn := (fields op).nn.isLt
  simp only [opcodeRows, opcodeRowsLow, opcodeRowsMid, opcodeRowsHigh, List.cons_append, List.nil_append,
    List.forall_mem_cons, ← Bool.not_eq_true, matchesWord_iff, toNat_and_class, toNat_and_class_n, toNat_and_class_nn,
    toNat_and_all, List.not_mem_nil, false_implies, implies_true, and_true, BitVec.reduceToNat]
  unfold select at h
  split at h
  case h_17 => simp only [imp_false] at *; omega
  all_goals rename_i hc; rw [hc]; clear hcls
  case h_1 =>
    have hE0 : (fields op).nnn ≠ 0xE0 := fun e => by simp [e] at h
    have hEE : (fields op).nnn ≠ 0xEE := fun e => by simp [e] at h
    omega
  case h_6 | h_10 =>
    have h0 : (fields op).n ≠ 0 := fun e => by simp [e] at h
    omega
  case h_9 =>
    have := selectAlu_eq_none h
    omega
  case h_15 =>
    have h9E : (fields op).nn ≠ 0x9E := fun e => by simp [e] at h
    have hA1 : (fields op).nn ≠ 0xA1 := fun e => by simp [e] at h
    simp only [ne_eq, BitVec.toNat_eq, BitVec.reduceToNat] at h9E hA1
    omega
  case h_16 =>
    have := selectMisc_eq_none h
    simp only [List.mem_cons, List.not_mem_nil] at this
    omega
  all_goals cases h

/-- No word matches two rows: on the bits that both fix, they differ. -/
theorem opcodeRows_disjoint :
    ∀ r ∈ opcodeRows, ∀ q ∈ opcodeRows, r.value &&& q.mask = q.value &&& r.mask → q = r := by decide

theorem eq_of_matchesWord {op : Word} {r q : OpcodeRow} (hr : r ∈ opcodeRows) (hq : q ∈ opcodeRows)
    (hrop : r.matchesWord op = true) (hqop : q.matchesWord op = true) : q = r := by
  rw [OpcodeRow.matchesWord, beq_iff_eq] at hrop hqop
  refine opcodeRows_disjoint r hr q hq ?_
  rw [← hrop, ← hqop, BitVec.and_assoc, BitVec.and_assoc, BitVec.and_comm r.mask]

/-- The word of the instruction matches the row with its pattern and format. -/
def HasRow (i : Instr) : Prop :=
  ∃ r ∈ opcodeRows, r.matchesWord (encode i) = true ∧ r.pattern = i.pattern ∧ r.format = i.format

section
variable {i : Instr} (p : String) (c : Nat)

theorem hasRow_addr (hr : c < 16 ∧ ⟨p, .addr, 0xF000, BitVec.ofNat 16 (4096 * c)⟩ ∈ opcodeRows) {nnn : Nat}
    (h : addrInRange nnn = true) (he : encode i = wordOf c nnn) (hp : p = i.pattern) (hf : .addr = i.format) :
    HasRow i := by
  refine ⟨_, hr.2, ?_, hp, hf⟩
  rw [he, matchesWord_iff, toNat_and_class, (fields_addr hr.1 h).1, BitVec.toNat_ofNat, Nat.mod_eq_of_lt (by omega)]

theorem hasRow_ximm (hr : c < 16 ∧ ⟨p, .ximm, 0xF000, BitVec.ofNat 16 (4096 * c)⟩ ∈ opcodeRows) (x : Reg)
    (nn : Byte) (he : encode i = wordXImm c x nn) (hp : p = i.pattern) (hf : .ximm = i.format) : HasRow i := by
  refine ⟨_, hr.2, ?_, hp, hf⟩
  rw [he, matchesWord_iff, toNat_and_class, (fields_wordXImm hr.1 x nn).1, BitVec.toNat_ofNat,
    Nat.mod_eq_of_lt (by omega)]

theorem hasRow_xyn (hr : c < 16 ∧ ⟨p, .xyn, 0xF000, BitVec.ofNat 16 (4096 * c)⟩ ∈ opcodeRows) (x y : Reg)
    {n : Nat} (hn : n < 16) (he : encode i = wordXYN c x y n) (hp : p = i.pattern) (hf : .xyn = i.format) :
    HasRow i := by
  refine ⟨_, hr.2, ?_, hp, hf⟩
  rw [he, matchesWord_iff, toNat_and_class, (fields_wordXYN hr.1 x y hn).1, BitVec.toNat_ofNat,
    Nat.mod_eq_of_lt (by omega)]

theorem hasRow_xy (n : Nat)
    (hr : c < 16 ∧ n < 16 ∧ ⟨p, .xy, 0xF00F, BitVec.ofNat 16 (4096 * c + n)⟩ ∈ opcodeRows) (x y : Reg)
    (he : encode i = wordXYN c x y n) (hp : p = i.pattern) (hf : .xy = i.format) : HasRow i := by
  obtain ⟨hc, hn, hmem⟩ := hr
  obtain ⟨hcls, -, -, hlow⟩ := fields_wordXYN hc x y hn
  refine ⟨_, hmem, ?_, hp, hf⟩
  rw [he, matchesWord_iff, toNat_and_class_n, hcls, hlow, BitVec.toNat_ofNat, Nat.mod_eq_of_lt (by omega)]

theorem hasRow_xsel (sel : Nat)
    (hr : c < 16 ∧ sel < 256 ∧ ⟨p, .xsel, 0xF0FF, BitVec.ofNat 16 (4096 * c + sel)⟩ ∈ opcodeRows) (x : Reg)
    (he : encode i = wordXSel c x sel) (hp : p = i.pattern) (hf : .xsel = i.format) : HasRow i := by
  obtain ⟨hc, hs, hmem⟩ := hr
  obtain ⟨hcls, -, hlow⟩ := fields_wordXSel hc x hs
  refine ⟨_, hmem, ?_, hp, hf⟩
  rw [he, matchesWord_iff, toNat_and_class_nn, hcls, hlow, BitVec.toNat_ofNat, BitVec.toNat_ofNat]
  omega

end

/-- Every well-formed instruction has its row, whatever the operands. -/
theorem hasRow : ∀ i : Instr, i.wellFormed = true → HasRow i
  | .cls, _ => ⟨⟨"00E0", .fixed, 0xFFFF, 0x00E0⟩, by decide, by decide, rfl, rfl⟩
  | .ret, _ => ⟨⟨"00EE", .fixed, 0xFFFF, 0x00EE⟩, by decide, by decide, rfl, rfl⟩
  | .jp _, hwf => hasRow_addr "1NNN" 1 (by decide) hwf rfl rfl rfl
  | .call _, hwf => hasRow_addr "2NNN" 2 (by decide) hwf rfl rfl rfl
  | .seImm x nn, _ => hasRow_ximm "3XNN" 3 (by decide) x nn rfl rfl rfl
  | .sneImm x nn, _ => hasRow_ximm "4XNN" 4 (by decide) x nn rfl rfl rfl
  | .seReg x y, _ => hasRow_xy "5XY0" 5 0x0 (by decide) x y rfl rfl rfl
  | .ldImm x nn, _ => hasRow_ximm "6XNN" 6 (by decide) x nn rfl rfl rfl
  | .addImm x nn, _ => hasRow_ximm "7XNN" 7 (by decide) x nn rfl rfl rfl
  | .ldReg x y, _ => hasRow_xy "8XY0" 8 0x0 (by decide) x y rfl rfl rfl
  | .orReg x y, _ => hasRow_xy "8XY1" 8 0x1 (by decide) x y rfl rfl rfl
  | .andReg x y, _ => hasRow_xy "8XY2" 8 0x2 (by decide) x y rfl rfl rfl
  | .xorReg x y, _ => hasRow_xy "8XY3" 8 0x3 (by decide) x y rfl rfl rfl
  | .addReg x y, _ => hasRow_xy "8XY4" 8 0x4 (by decide) x y rfl rfl rfl
  | .subReg x y, _ => hasRow_xy "8XY5" 8 0x5 (by decide) x y rfl rfl rfl
  | .shr x y, _ => hasRow_xy "8XY6" 8 0x6 (by decide) x y rfl rfl rfl
  | .subnReg x y, _ => hasRow_xy "8XY7" 8 0x7 (by decide) x y rfl rfl rfl
  | .shl x y, _ => hasRow_xy "8XYE" 8 0xE (by decide) x y rfl rfl rfl
  | .sneReg x y, _ => hasRow_xy "9XY0" 9 0x0 (by decide) x y rfl rfl rfl
  | .ldI _, hwf => hasRow_addr "ANNN" 10 (by decide) hwf rfl rfl rfl
  | .jpV0 _, hwf => hasRow_addr "BNNN" 11 (by decide) hwf rfl rfl rfl
  | .rnd x nn, _ => hasRow_ximm "CXNN" 12 (by decide) x nn rfl rfl rfl
  | .drw x y _, hwf => hasRow_xyn "DXYN" 13 (by decide) x y (of_decide_eq_true hwf) rfl rfl rfl
  | .skp x, _ => hasRow_xsel "EX9E" 14 0x9E (by decide) x rfl rfl rfl
  | .sknp x, _ => hasRow_xsel "EXA1" 14 0xA1 (by decide) x rfl rfl rfl
  | .ldVxDt x, _ => hasRow_xsel "FX07" 15 0x07 (by decide) x rfl rfl rfl
  | .ldVxKey x, _ => hasRow_xsel "FX0A" 15 0x0A (by decide) x rfl rfl rfl
  | .ldDtVx x, _ => hasRow_xsel "FX15" 15 0x15 (by decide) x rfl rfl rfl
  | .ldStVx x, _ => hasRow_xsel "FX18" 15 0x18 (by decide) x rfl rfl rfl
  | .addI x, _ => hasRow_xsel "FX1E" 15 0x1E (by decide) x rfl rfl rfl
  | .ldFont x, _ => hasRow_xsel "FX29" 15 0x29 (by decide) x rfl rfl rfl
  | .ldBcd x, _ => hasRow_xsel "FX33" 15 0x33 (by decide) x rfl rfl rfl
  | .storeRegs x, _ => hasRow_xsel "FX55" 15 0x55 (by decide) x rfl rfl rfl
  | .loadRegs x, _ => hasRow_xsel "FX65" 15 0x65 (by decide) x rfl rfl rfl

/-- Settles O5: the row of a decoded instruction is matched by its word (O4), two rows share no word, and where the
decoder selects nothing every row's mask shows another value. -/
theorem decoderAgreesWithTable : Obligations.DecoderAgreesWithTable := by
  refine fun op => ⟨fun i hi => ?_, matchesWord_of_select_none⟩
  obtain ⟨henc, hwf⟩ := encodeOfDecodedWord op i hi
  obtain ⟨r, hr, hmatch, hpattern, hformat⟩ := hasRow i hwf
  rw [henc] at hmatch
  exact ⟨r, hr, hmatch, hpattern, hformat, fun q hq hqop => eq_of_matchesWord hr hq hmatch hqop⟩

end Sys2Proof.Proofs
end

section
/-!
PROOFS. What an instruction can do, said once (spec/40_control_flow.md R100): which part of the state it writes, and the
three ways it ends. The whole-machine frames and the fault rules are read off this.
-/
namespace Sys2Proof.Proofs
open Sys2Proof.Machine Sys2Proof.Laws

/-! ### The writes -/

/-- The state with the return address pushed, before `PC` moves (R104). -/
def pushed (s : State) (h : s.sp.val < 16) : State :=
  { s with stack := s.stack.set s.sp.val (returnAddress s) h, sp := ⟨s.sp.val + 1, Nat.succ_lt_succ h⟩ }

/-- The state with the newest return address popped, its slot as it was (R105, R24). -/
def popped (s : State) (h : s.sp.val - 1 < 16) : State := { s with sp := ⟨s.sp.val - 1, Nat.lt_succ_of_lt h⟩ }

theorem pushed_getElem (s : State) (h : s.sp.val < 16) {k : Nat} (hk : k < 16) :
    (pushed s h).stack[k] = if s.sp.val = k then returnAddress s else s.stack[k] :=
  Vector.getElem_set h hk

theorem toNat_returnAddress {s : State} (h : s.pc.toNat ≤ 4094) : (returnAddress s).toNat = s.pc.toNat + 2 := by
  rw [returnAddress, BitVec.toNat_ofNat, Nat.mod_eq_of_lt (by omega)]

/-- `w` is `s` after the writes of a completed instruction, before `PC` moves. -/
inductive Writes (s : State) : Instr → State → Prop
  | nothing {i : Instr} : Writes s i s
  | registers {i : Instr} {v : Vector Byte 16} (h : SameRegsBut (writesRegs i) s { s with v := v }) :
      Writes s i { s with v := v }
  | random {x : Reg} {nn : Byte} {v : Vector Byte 16} (h : SameRegsBut [x] s { s with v := v }) :
      Writes s (.rnd x nn) { s.drawn with v := v }
  | blank {d : Screen} : Writes s .cls { s with disp := d }
  | sprite {x y : Reg} {n : Nat} {d : Screen} {v : Vector Byte 16} (h : SameRegsBut [VF] s { s with v := v }) :
      Writes s (.drw x y n) { s with disp := d, v := v }
  | push {nnn : Nat} (h : s.sp.val < 16) : Writes s (.call nnn) (pushed s h)
  | pop (h : s.sp.val - 1 < 16) : Writes s .ret (popped s h)
  | index {i : Instr} {w : Word} (h : ∃ nnn x, i = .ldI nnn ∨ i = .addI x ∨ i = .ldFont x) : Writes s i (s.setI w)
  | delay {x : Reg} {b : Byte} : Writes s (.ldDtVx x) (s.setDt b)
  | sound {x : Reg} {b : Byte} : Writes s (.ldStVx x) (s.setSt b)
  | store {i : Instr} {bs : List Byte} (hn : bs.length = storedBytes i) (hfont : 80 ≤ dataAddress s)
      (hfits : dataAddress s + bs.length ≤ 4096) :
      Writes s i { s with mem := s.mem.writeBytes (dataAddress s) bs }

theorem sameRegsBut_setReg (s : State) (x : Reg) (b : Byte) : SameRegsBut [x] s (s.setReg x b) := fun r hr =>
  (State.setReg_reg s x b r).trans (if_neg fun h => hr (List.mem_singleton.2 h))

theorem sameRegsBut_setReg_setReg (s : State) (x y : Reg) (a b : Byte) :
    SameRegsBut [x, y] s ((s.setReg x a).setReg y b) := fun r hr => by
  rw [List.mem_cons, List.mem_singleton, not_or] at hr
  rw [State.setReg_reg, if_neg hr.2, State.setReg_reg, if_neg hr.1]

theorem writes_setReg {s : State} {i : Instr} {x : Reg} (h : writesRegs i = [x]) (b : Byte) :
    Writes s i (s.setReg x b) :=
  .registers (v := (s.setReg x b).v) (h ▸ sameRegsBut_setReg s x b)

theorem writes_setRegThenFlag {s : State} {i : Instr} {x : Reg} (h : writesRegs i = [x, VF]) (r f : Byte) :
    Writes s i (s.setRegThenFlag x r f) :=
  .registers (v := (s.setRegThenFlag x r f).v) (h ▸ sameRegsBut_setReg_setReg s x VF r f)

theorem writes_setFlagThenReg {s : State} {i : Instr} {x : Reg} (h : writesRegs i = [x, VF]) (r f : Byte) :
    Writes s i (s.setFlagThenReg x r f) := by
  have hswap : SameRegsBut [x, VF] s ((s.setReg VF f).setReg x r) := fun q hq =>
    sameRegsBut_setReg_setReg s VF x f r q fun hm => hq ((List.Perm.swap x VF []).mem_iff.1 hm)
  exact .registers (v := (s.setFlagThenReg x r f).v) (h ▸ hswap)

theorem writes_loadRegs {s : State} {x : Reg} (f : Nat → Byte) :
    Writes s (.loadRegs x) (s.setRegs 0 ((List.range (x.val + 1)).map f)) := by
  have hregs : SameRegsBut (writesRegs (.loadRegs x)) s (s.setRegs 0 ((List.range (x.val + 1)).map f)) := fun r hr => by
    have hx : ¬ r.val < x.val + 1 := fun hlt =>
      hr (List.mem_filter.2 ⟨List.mem_finRange r, decide_eq_true (Nat.le_of_lt_succ hlt)⟩)
    rw [setRegs_zero_map_range_reg, if_neg hx]
  rw [State.setRegs_frame] at hregs ⊢
  exact .registers hregs

/-! ### The ways an instruction ends -/

/-- `t` is what the instruction answers from `s`. Only a transfer raises another kind than `OutOfBoundsAccess`, and only
a transfer goes on to less than `PC + 2` (R101 to R110). -/
inductive Answers (s : State) (i : Instr) : State → Prop
  | faults (k : FaultKind) (h : isTransfer i = false → k = .outOfBoundsAccess) :
      Answers s i (takeFault k (encode i) s)
  | completes {w : State} {npc : Nat} (hw : Writes s i w) (hlegal : npc ≤ 4095 ∧ npc % 2 = 0)
      (hnext : isTransfer i = false → s.pc.toNat + 2 ≤ npc) : Answers s i (w.setPc npc)
  | waits {x : Reg} (hi : i = .ldVxKey x) (hlegal : s.pc.toNat + 2 ≤ 4095 ∧ (s.pc.toNat + 2) % 2 = 0) :
      Answers s i { s with mode := .waitKey, waitX := x }

theorem commit_error_answers {s : State} {i : Instr} {k : FaultKind}
    (h : isTransfer i = false → k = .outOfBoundsAccess) :
    ∃ t, commit i s (.error k) = .next t ∧ Answers s i t :=
  ⟨_, commit_error i s k, .faults k h⟩

theorem commit_ok_answers {s w : State} {i : Instr} {npc : Nat} (hw : Writes s i w)
    (hnext : isTransfer i = false → s.pc.toNat + 2 ≤ npc) :
    ∃ t, commit i s (.ok (w, npc)) = .next t ∧ Answers s i t := by
  by_cases hlegal : npc ≤ 4095 ∧ npc % 2 = 0
  · exact ⟨_, commit_ok i s w hlegal, .completes hw hlegal hnext⟩
  · exact ⟨_, commit_bad i s w hlegal, .faults _ fun _ => rfl⟩

theorem commit_advance_answers {s w : State} {i : Instr} (hw : Writes s i w) :
    ∃ t, commit i s (advance s w) = .next t ∧ Answers s i t :=
  commit_ok_answers hw fun _ => Nat.le_refl _

theorem commit_skipIf_answers (s : State) (i : Instr) (taken : Bool) :
    ∃ t, commit i s (skipIf s taken) = .next t ∧ Answers s i t :=
  commit_ok_answers .nothing fun _ => by
    cases taken
    · exact Nat.le_refl _
    · exact Nat.add_le_add_left (by decide) _

theorem commit_keyLevel_answers (s : State) (i : Instr) (x : Reg) (taken : Bool → Bool) :
    ∃ t, commit i s ((keyLevel s x).bind fun down => skipIf s (taken down)) = .next t ∧ Answers s i t := by
  obtain ⟨h, -⟩ | ⟨_, h⟩ := keyLevel_cases s x <;> rw [h]
  · exact commit_error_answers fun _ => rfl
  · exact commit_skipIf_answers s i _

theorem commit_memWrite_answers {s : State} {i : Instr} {bs : List Byte} (hn : bs.length = storedBytes i) :
    ∃ t, commit i s ((memWrite s (dataAddress s) bs).bind (advance s)) = .next t ∧ Answers s i t := by
  obtain ⟨h, -⟩ | ⟨h, hfont, hfits⟩ := memWrite_cases s (dataAddress s) bs <;> rw [h]
  · exact commit_error_answers fun _ => rfl
  · exact commit_advance_answers (.store hn hfont hfits)

theorem commit_memRead_answers {s : State} {i : Instr} {n : Nat} {f : List Byte → State}
    (hf : Writes s i (f ((List.range n).map fun k => s.readByte (dataAddress s + k)))) :
    ∃ t, commit i s ((memRead s (dataAddress s) n).bind fun bytes => advance s (f bytes)) = .next t ∧
      Answers s i t := by
  obtain ⟨h, -⟩ | ⟨h, -⟩ := memRead_cases s (dataAddress s) n <;> rw [h]
  · exact commit_error_answers fun _ => rfl
  · exact commit_advance_answers hf

theorem execCall_answers (nnn : Nat) (s : State) : ∃ t, execCall nnn s = .next t ∧ Answers s (.call nnn) t := by
  obtain ⟨h, -⟩ | ⟨hroom, h⟩ := push_cases s (returnAddress s) <;> rw [execCall, h]
  · exact commit_error_answers nofun
  · exact commit_ok_answers (.push hroom) nofun

theorem execRet_answers (s : State) : ∃ t, execRet s = .next t ∧ Answers s .ret t := by
  obtain ⟨h, -⟩ | ⟨hlast, -, h⟩ := pop_cases s <;> rw [execRet, h]
  · exact commit_error_answers nofun
  · exact commit_ok_answers (.pop hlast) nofun

theorem execDrw_answers (x y : Reg) (n : Nat) (s : State) :
    ∃ t, execDrw x y n s = .next t ∧ Answers s (.drw x y n) t :=
  commit_memRead_answers (.sprite (sameRegsBut_setReg s VF _))

theorem execLdVxKey_answers (x : Reg) (s : State) : ∃ t, execLdVxKey x s = .next t ∧ Answers s (.ldVxKey x) t := by
  by_cases hlegal : s.pc.toNat + 2 ≤ 4095 ∧ (s.pc.toNat + 2) % 2 = 0
  · exact ⟨_, commitHeld_ok _ s _ hlegal, .waits rfl hlegal⟩
  · exact ⟨_, commitHeld_bad _ s _ hlegal, .faults _ fun _ => rfl⟩

/-- The register store: `x + 1` bytes. -/
theorem length_regsUpTo (s : State) (x : Reg) : (regsUpTo s x).length = x.val + 1 := by
  rw [regsUpTo, List.length_take, Vector.length_toList]
  exact Nat.min_eq_left x.isLt

/-- Every instruction answers a next state, in one of the three ways. -/
theorem exec_answers : ∀ (i : Instr) (s : State), ∃ t, exec i s = .next t ∧ Answers s i t
  | .cls, _ => commit_advance_answers .blank
  | .ret, s => execRet_answers s
  | .jp _, _ => commit_ok_answers .nothing nofun
  | .call nnn, s => execCall_answers nnn s
  | .seImm _ _, s => commit_skipIf_answers s _ _
  | .sneImm _ _, s => commit_skipIf_answers s _ _
  | .seReg _ _, s => commit_skipIf_answers s _ _
  | .ldImm _ _, _ => commit_advance_answers (writes_setReg rfl _)
  | .addImm _ _, _ => commit_advance_answers (writes_setReg rfl _)
  | .ldReg _ _, _ => commit_advance_answers (writes_setReg rfl _)
  | .orReg _ _, _ => commit_advance_answers (writes_setReg rfl _)
  | .andReg _ _, _ => commit_advance_answers (writes_setReg rfl _)
  | .xorReg _ _, _ => commit_advance_answers (writes_setReg rfl _)
  | .addReg _ _, _ => commit_advance_answers (writes_setRegThenFlag rfl _ _)
  | .subReg _ _, _ => commit_advance_answers (writes_setRegThenFlag rfl _ _)
  | .shr _ _, _ => commit_advance_answers (writes_setFlagThenReg rfl _ _)
  | .subnReg _ _, _ => commit_advance_answers (writes_setRegThenFlag rfl _ _)
  | .shl _ _, _ => commit_advance_answers (writes_setFlagThenReg rfl _ _)
  | .sneReg _ _, s => commit_skipIf_answers s _ _
  | .ldI nnn, _ => commit_advance_answers (.index ⟨nnn, 0, .inl rfl⟩)
  | .jpV0 _, _ => commit_ok_answers .nothing nofun
  | .rnd x _, s => commit_advance_answers (.random (sameRegsBut_setReg s x _))
  | .drw x y n, s => execDrw_answers x y n s
  | .skp x, s => commit_keyLevel_answers s _ x id
  | .sknp x, s => commit_keyLevel_answers s _ x not
  | .ldVxDt _, _ => commit_advance_answers (writes_setReg rfl _)
  | .ldVxKey x, s => execLdVxKey_answers x s
  | .ldDtVx _, _ => commit_advance_answers .delay
  | .ldStVx _, _ => commit_advance_answers .sound
  | .addI x, _ => commit_advance_answers (.index ⟨0, x, .inr (.inl rfl)⟩)
  | .ldFont x, _ => commit_advance_answers (.index ⟨0, x, .inr (.inr rfl)⟩)
  | .ldBcd _, _ => commit_memWrite_answers rfl
  | .storeRegs x, s => commit_memWrite_answers (length_regsUpTo s x)
  | .loadRegs _, _ => commit_memRead_answers (writes_loadRegs _)

theorem answers_of_exec {i : Instr} {s t : State} (h : exec i s = .next t) : Answers s i t := by
  obtain ⟨u, hu, ha⟩ := exec_answers i s
  cases hu.symm.trans h
  exact ha

/-! ### Faults and frames -/

/-- Settles O10: of the three ways to end, a completion keeps `MODE`, a key-wait is not `FAULTED`, and a fault writes
`MODE` and the fault record only. -/
theorem faultingInstructionCommitsNothing : Obligations.FaultingInstructionCommitsNothing := by
  intro i s
  obtain ⟨t, ht, hanswers⟩ := exec_answers i s
  refine ⟨t, ht, fun hs hfaulted => ?_⟩
  cases hanswers with
  | faults k _ => exact ⟨k, rfl⟩
  | completes hw _ _ => cases hw <;> exact absurd hfaulted hs
  | waits _ _ => cases hfaulted

/-- An instruction that is no transfer has no legal next program counter in the last word (R249). -/
theorem exec_last_word {i : Instr} {s : State} (hi : isTransfer i = false) (hpc : s.pc = 0xFFE) :
    exec i s = .next (faultedWith .outOfBoundsAccess (encode i) s) := by
  obtain ⟨t, ht, hanswers⟩ := exec_answers i s
  have hlast : s.pc.toNat = 4094 := by rw [hpc]; rfl
  rw [ht]
  cases hanswers with
  | faults k h => rw [h hi]; rfl
  | completes _ hlegal hnext =>
    have := hnext hi
    omega
  | waits _ hlegal => omega

/-- A taken skip from `0xFFC` goes to 4096, which is no legal program counter. -/
theorem commit_skipIf_true_bad {s : State} (i : Instr) (hpc : s.pc.toNat = 4092) :
    commit i s (skipIf s true) = .next (faultedWith .outOfBoundsAccess (encode i) s) := by
  have hskip : ¬(s.pc.toNat + 4 ≤ 4095 ∧ (s.pc.toNat + 4) % 2 = 0) := by omega
  exact commit_bad i s s (npc := s.pc.toNat + 4) hskip

/-- Settles O11: `PC + 2` of the last word and `PC + 4` of the word before it are both 4096. -/
theorem onlyTransfersCompleteInLastWord : Obligations.OnlyTransfersCompleteInLastWord := by
  refine ⟨fun i s hi hpc => exec_last_word hi hpc, fun x nn s hpc => ⟨fun heq => ?_, fun hne => ?_⟩⟩
  · rw [exec_seImm_of_eq heq, commit_skipIf_true_bad _ (by rw [hpc]; rfl)]
  · rw [exec_sneImm_of_ne hne, commit_skipIf_true_bad _ (by rw [hpc]; rfl)]

/-- Settles O12: the writes that touch `V` name their registers, and the others leave `V` as it was. -/
theorem registersWrittenByInstruction : Obligations.RegistersWrittenByInstruction := by
  intro i s t h
  cases answers_of_exec h with
  | faults k _ => exact fun _ _ => rfl
  | waits _ _ => exact fun _ _ => rfl
  | completes hw _ _ =>
    cases hw with
    | registers hregs => exact hregs
    | random hregs => exact hregs
    | sprite hregs => exact hregs
    | _ => exact fun _ _ => rfl

/-- Storing bytes leaves the rest of memory as it was. -/
theorem sameMemoryOutside_writeBytes {s : State} {a : Nat} {bs : List Byte} (hwf : s.mem.wf = true)
    (hfits : a + bs.length ≤ 4096) :
    SameMemoryOutside a bs.length s { s with mem := s.mem.writeBytes a bs } := by
  intro c hc
  rw [State.readByte, Memory.read_writeBytes bs c hwf hfits]
  rcases hc with hlow | hhigh
  · rw [if_neg (by omega)]; rfl
  · rw [if_pos (by omega), List.getElem?_eq_none (by omega)]; rfl

/-- Settles O13: a store is the only write that touches memory, and it stores `storedBytes` bytes from `I`. -/
theorem memoryWrittenOnlyByStores : Obligations.MemoryWrittenOnlyByStores := by
  intro i s t hwf h
  cases answers_of_exec h with
  | faults k _ => exact fun _ _ => rfl
  | waits _ _ => exact fun _ _ => rfl
  | completes hw _ _ =>
    cases hw with
    | store hn _ hfits => exact hn ▸ sameMemoryOutside_writeBytes hwf hfits
    | _ => exact fun _ _ => rfl

section
variable {s w : State} {i : Instr}

theorem Writes.keeps_index (hw : Writes s i w) (hi : ∀ nnn x, i ≠ .ldI nnn ∧ i ≠ .addI x ∧ i ≠ .ldFont x) :
    SameIndex s w := by
  cases hw with
  | index h =>
    obtain ⟨nnn, x, h⟩ := h
    obtain ⟨h1, h2, h3⟩ := hi nnn x
    exact absurd h (not_or.2 ⟨h1, not_or.2 ⟨h2, h3⟩⟩)
  | _ => rfl

theorem Writes.keeps_stack (hw : Writes s i w) (hi : ∀ nnn, i ≠ .call nnn ∧ i ≠ .ret) : SameStack s w := by
  cases hw with
  | push _ => exact absurd rfl (hi _).1
  | pop _ => exact absurd rfl (hi 0).2
  | _ => exact ⟨rfl, rfl⟩

theorem Writes.keeps_dt (hw : Writes s i w) (hi : ∀ x, i ≠ .ldDtVx x) : w.dt = s.dt := by
  cases hw with
  | delay => exact absurd rfl (hi _)
  | _ => rfl

theorem Writes.keeps_st (hw : Writes s i w) (hi : ∀ x, i ≠ .ldStVx x) : w.st = s.st := by
  cases hw with
  | sound => exact absurd rfl (hi _)
  | _ => rfl

theorem Writes.keeps_display (hw : Writes s i w) (hi : ∀ x y n, i ≠ .cls ∧ i ≠ .drw x y n) : SameDisplay s w := by
  cases hw with
  | blank => exact absurd rfl (hi 0 0 0).1
  | sprite _ => exact absurd rfl (hi _ _ _).2
  | _ => rfl

theorem Writes.keeps_random (hw : Writes s i w) (hi : ∀ x nn, i ≠ .rnd x nn) :
    w.rndIn = s.rndIn ∧ w.draws = s.draws := by
  cases hw with
  | random _ => exact absurd rfl (hi _ _)
  | _ => exact ⟨rfl, rfl⟩

/-- What no completed instruction writes before `PC` moves. -/
theorem Writes.keeps (hw : Writes s i w) :
    w.pc = s.pc ∧ SameKeys s w ∧ SameControl s w ∧ w.pending = s.pending := by
  cases hw <;> exact ⟨rfl, rfl, ⟨rfl, rfl, rfl, rfl, rfl⟩, rfl⟩

theorem Writes.keeps_mode (hw : Writes s i w) : w.mode = s.mode := by
  obtain ⟨-, -, ⟨hmode, -⟩, -⟩ := hw.keeps
  exact hmode

end

/-- Settles O14: a fault writes `MODE` and the fault record, a key-wait `MODE` and `WAITX`, and each of the writes its
own part. -/
theorem otherStateWrittenByInstruction : Obligations.OtherStateWrittenByInstruction := by
  intro i s t h
  cases answers_of_exec h with
  | faults k _ =>
    exact ⟨fun _ => rfl, fun _ => ⟨rfl, rfl⟩, fun _ => rfl, fun _ => rfl, fun _ => rfl, rfl, fun _ => rfl,
      fun hmode => absurd rfl hmode, fun _ => ⟨rfl, rfl⟩, rfl⟩
  | waits hi _ =>
    exact ⟨fun _ => rfl, fun _ => ⟨rfl, rfl⟩, fun _ => rfl, fun _ => rfl, fun _ => rfl, rfl,
      fun hne => absurd hi (hne _), fun _ => ⟨rfl, rfl, rfl⟩, fun _ => ⟨rfl, rfl⟩, rfl⟩
  | completes hw _ _ =>
    obtain ⟨-, hkeys, ⟨-, hwait, hrecord⟩, hpending⟩ := hw.keeps
    exact ⟨hw.keeps_index, hw.keeps_stack, hw.keeps_dt, hw.keeps_st, hw.keeps_display, hkeys, fun _ => hwait,
      fun _ => hrecord, hw.keeps_random, hpending⟩

end Sys2Proof.Proofs
end

section
/-!
PROOFS. One step (spec/40_control_flow.md R100): what the Executor does in each `MODE`, with the word at `PC`, and where
a run has settled.
-/
namespace Sys2Proof.Proofs
open Sys2Proof.Machine Sys2Proof.Laws

/-! ### The Executor in each mode -/

theorem execTransition_running {s : State} (h : s.mode = .running) : execTransition s = runInstruction s := by
  rw [execTransition, h]

theorem execTransition_held {s : State} (h : s.mode = .stopped ∨ s.mode = .waitKey) : execTransition s = .next s := by
  rcases h with h | h <;> rw [execTransition, h]

theorem execTransition_faulted {s : State} (h : s.mode = .faulted) : execTransition s = .fault (.halted s.fkind) := by
  rw [execTransition, h]

/-! ### Fetch and decode -/

theorem fetch_ok {s : State} (h : CanFetch s) : fetch s = .ok (wordAt s s.pc.toNat) :=
  ((fetch_cases s).resolve_left fun ⟨_, hbad⟩ => by omega).1

theorem fetch_error {s : State} (h : s.pc.toNat % 2 = 1 ∨ 4094 < s.pc.toNat) : fetch s = .error .outOfBoundsAccess :=
  ((fetch_cases s).resolve_right fun ⟨_, hgood⟩ => by omega).1

theorem runInstruction_of_decode {s : State} {i : Instr} (h : CanFetch s)
    (hd : decodeWord (wordAt s s.pc.toNat) = some i) : runInstruction s = exec i s := by
  simp only [runInstruction, fetch_ok h, hd]

theorem runInstruction_of_illegal {s : State} (h : CanFetch s) (hd : decodeWord (wordAt s s.pc.toNat) = none) :
    runInstruction s = .next (takeFault .invalidOpcode (wordAt s s.pc.toNat) s) := by
  simp only [runInstruction, fetch_ok h, hd]

theorem runInstruction_of_fetch_error {s : State} (h : s.pc.toNat % 2 = 1 ∨ 4094 < s.pc.toNat) :
    runInstruction s = .next (takeFault .outOfBoundsAccess 0 s) := by
  simp only [runInstruction, fetch_error h]

theorem step_exec {s : State} {i : Instr} (hmode : s.mode = .running) (hpending : s.pending = []) (h : CanFetch s)
    (hd : decodeWord (wordAt s s.pc.toNat) = some i) : step s = exec i s := by
  rw [step_unscheduled hpending, execTransition_running hmode, runInstruction_of_decode h hd]

/-- Settles O6: the Executor fetches the word at `PC` and runs what it decodes to; taking the entry off the schedule
changes neither `PC` nor memory. -/
theorem stepRunsDecodedInstruction : Obligations.StepRunsDecodedInstruction := by
  refine fun s i hmode hfetch hd => ⟨fun hpending => step_exec hmode hpending hfetch hd, fun rest hpending => ?_⟩
  rw [step_scheduled hpending]
  exact (execTransition_running (s := { s with pending := rest }) hmode).trans (runInstruction_of_decode hfetch hd)

/-- Settles O7: the fetch fails on its check of `PC`, and the decoder on an illegal word. -/
theorem fetchAndDecodeFaults : Obligations.FetchAndDecodeFaults := by
  intro s hmode hpending
  rw [step_unscheduled hpending, execTransition_running hmode]
  exact ⟨runInstruction_of_fetch_error, runInstruction_of_illegal⟩

/-- Settles O8: `Exec` is the Executor's transition, which looks at `MODE` first. -/
theorem executorHeldUnlessRunning : Obligations.ExecutorHeldUnlessRunning := by
  intro s hpending
  rw [step_unscheduled hpending]
  exact ⟨execTransition_held, execTransition_faulted⟩

/-! ### The placed word -/

theorem wordAt_writeBytes {s : State} {a : Nat} (op : Word) (hwf : s.mem.wf = true) (ha : a ≤ 4094) :
    wordAt { s with mem := s.mem.writeBytes a (wordBytes op) } a = op := by
  have hfits : a + (wordBytes op).length ≤ 4096 := by simp only [wordBytes, List.length_cons, List.length_nil]; omega
  rw [wordAt, State.readByte, State.readByte, Memory.read_writeBytes _ _ hwf hfits, if_pos (Nat.le_refl a),
    Memory.read_writeBytes _ _ hwf hfits, if_pos (Nat.le_succ a), Nat.sub_self, Nat.add_sub_cancel_left]
  exact wordOfBytes_slices op

/-- A table word is decoded as the word it is. -/
theorem decodeWord_of_decodeTableWord {nbits w : Nat} {i : Instr} (h : decodeTableWord nbits w = some i) :
    decodeWord (BitVec.ofNat 16 (w % 2 ^ nbits)) = some i := by
  simp only [decodeTableWord, wordBytes, decodeBytes, wordOfBytes_slices] at h
  cases hd : decodeWord (BitVec.ofNat 16 (w % 2 ^ nbits)) with
  | none => rw [hd] at h; cases h
  | some j => rw [hd] at h; exact h

/-- Settles O9: the placed bytes are read back as the word, at the `PC` and in the `MODE` that fetch it. -/
theorem placedWordRunsNext : Obligations.PlacedWordRunsNext := by
  intro s w i hwf hfetch hd
  have hword := wordAt_writeBytes (BitVec.ofNat 16 (w % 2 ^ 16)) hwf hfetch.2
  exact step_exec rfl rfl hfetch ((congrArg decodeWord hword).trans (decodeWord_of_decodeTableWord hd))

/-! ### Settled states -/

/-- The word of a jump to `nnn`, as a number (R103). -/
theorem decodeWord_of_toNat_jp {op : Word} {nnn : Nat} (h : nnn < 4096) (hop : op.toNat = 0x1000 + nnn) :
    decodeWord op = some (.jp nnn) := by
  have hword : op = encode (.jp nnn) := by
    apply BitVec.eq_of_toNat_eq
    rw [hop, encode, wordOf, BitVec.toNat_ofNat, Nat.mod_eq_of_lt (by omega)]
  exact hword ▸ WordRoundTrip.jp nnn (decide_eq_true h)

/-- 1NNN to a legal target moves `PC` only (R103). -/
theorem exec_jp_of_legal {nnn : Nat} (s : State) (h : nnn ≤ 4095 ∧ nnn % 2 = 0) :
    exec (.jp nnn) s = .next (s.setPc nnn) :=
  commit_ok _ s s h

theorem setPc_self (s : State) : s.setPc s.pc.toNat = s := by
  rw [State.setPc, BitVec.ofNat_toNat, BitVec.setWidth_eq]

/-- A tick writes the two timers only. -/
theorem tick_frame (s : State) : tick s = { s with dt := (tick s).dt, st := (tick s).st } := by
  unfold tick
  split <;> rfl

/-- Settles O60: the jump to its own address leaves `PC` where it is, and a tick touches none of what it needs. -/
theorem settledStateStays : Obligations.SettledStateStays := by
  intro s hsettled
  obtain ⟨hmode, heven, hlow, hword⟩ := hsettled
  refine ⟨fun hpending => ?_, ?_⟩
  · rw [step_exec hmode hpending ⟨heven, hlow⟩ (decodeWord_of_toNat_jp (by omega) hword),
      exec_jp_of_legal s ⟨by omega, heven⟩, setPc_self]
  · rw [tick_frame]
    exact ⟨hmode, heven, hlow, hword⟩

end Sys2Proof.Proofs
end

section
/-!
PROOFS. What every step keeps (spec/10_state.md R30 to R35): the invariants of reachable states, the graph of `MODE`,
and the frozen machine of R203.
-/
namespace Sys2Proof.Proofs
open Sys2Proof.Machine Sys2Proof.Laws

/-! ### Each agent's transition keeps the invariants -/

/-- Settles O55: at reset memory lists nothing, the stack is empty and `MODE` is `STOPPED`. -/
theorem resetMeetsInvariants : Obligations.ResetMeetsInvariants where
  pcEven := by decide
  pcLow := by decide
  font a ha := if_pos ha
  fault := by decide
  returns k _ hk := absurd hk (Nat.not_lt_zero k)
  memory := rfl
  waitRoom := nofun
  waitWord := nofun

/-- A fault entry from a state that meets the invariants meets them: they speak of nothing else that it writes. -/
theorem inv_takeFault {s : State} (h : Inv s) (k : FaultKind) (op : Word) : Inv (takeFault k op s) where
  pcEven := h.pcEven
  pcLow := h.pcLow
  font := h.font
  fault := ⟨fun _ => rfl, fun _ => rfl⟩
  returns := h.returns
  memory := h.memory
  waitRoom := nofun
  waitWord := nofun

theorem inv_setPending {s : State} (h : Inv s) (rest : List Transition) : Inv { s with pending := rest } :=
  { h with }

theorem inv_setTimers {s : State} (h : Inv s) (dt st : Byte) : Inv { s with dt := dt, st := st } :=
  { h with }

theorem inv_setKeys {s : State} (h : Inv s) (keys : Vector Bool 16) : Inv { s with keys := keys } :=
  { h with }

theorem inv_resetCore (s : State) : Inv (resetCore s) :=
  { resetMeetsInvariants with }

/-- A store above the font keeps the invariants, outside a key-wait (whose FX0A it might overwrite). -/
theorem inv_writeBytes {s : State} (h : Inv s) (hmode : s.mode ≠ .waitKey) {a : Nat} {bs : List Byte} (hfont : 80 ≤ a)
    (hfits : a + bs.length ≤ 4096) : Inv { s with mem := s.mem.writeBytes a bs } :=
  { h with
    font := fun c hc => (sameMemoryOutside_writeBytes h.memory hfits c (.inl (by omega))).trans (h.font c hc)
    memory := Memory.wf_writeBytes bs h.memory hfits
    waitWord := fun hwait => absurd hwait hmode }

theorem inv_setPc {s : State} (h : Inv s) (hmode : s.mode ≠ .waitKey) {npc : Nat}
    (hlegal : npc ≤ 4095 ∧ npc % 2 = 0) : Inv (s.setPc npc) := by
  have hpc : (s.setPc npc).pc.toNat = npc := by rw [State.setPc_pc, BitVec.toNat_ofNat, Nat.mod_eq_of_lt (by omega)]
  exact { h with
    pcEven := by rw [hpc]; exact hlegal.2
    pcLow := by omega
    waitRoom := fun hwait => absurd hwait hmode
    waitWord := fun hwait => absurd hwait hmode }

/-- A new return address is `PC + 2` (R104). -/
theorem inv_pushed {s : State} (h : Inv s) (hroom : s.sp.val < 16) : Inv (pushed s hroom) := by
  have heven := h.pcEven
  have hlow := h.pcLow
  have hreturn := toNat_returnAddress hlow
  refine { h with returns := fun k hk (hlt : k < s.sp.val + 1) => ?_ }
  rw [pushed_getElem]
  split
  · omega
  · exact h.returns k hk (by omega)

theorem inv_popped {s : State} (h : Inv s) (hlast : s.sp.val - 1 < 16) : Inv (popped s hlast) :=
  { h with returns := fun k hk hlt => h.returns k hk (Nat.lt_of_lt_of_le hlt (Nat.sub_le _ _)) }

/-- A completed instruction's writes keep the invariants, outside a key-wait. -/
theorem Writes.inv {s w : State} {i : Instr} (hw : Writes s i w) (h : Inv s) (hmode : s.mode ≠ .waitKey) : Inv w := by
  cases hw with
  | push hroom => exact inv_pushed h hroom
  | pop hlast => exact inv_popped h hlast
  | store _ hfont hfits => exact inv_writeBytes h hmode hfont hfits
  | _ => exact { h with }

/-- The word that a key-wait was decoded from is the one at `PC`. -/
theorem inv_wait {s : State} (h : Inv s) (hmode : s.mode ≠ .faulted) {x : Reg}
    (hd : decodeWord (wordAt s s.pc.toNat) = some (.ldVxKey x))
    (hlegal : s.pc.toNat + 2 ≤ 4095 ∧ (s.pc.toNat + 2) % 2 = 0) : Inv { s with mode := .waitKey, waitX := x } :=
  { h with
    fault := ⟨fun hk => absurd (h.fault.1 hk) hmode, nofun⟩
    waitRoom := fun _ => by simp only; omega
    waitWord := fun _ => (encodeOfDecodedWord _ _ hd).1.symm }

theorem inv_exec {s t : State} {i : Instr} (h : Inv s) (hmode : s.mode = .running)
    (hd : decodeWord (wordAt s s.pc.toNat) = some i) (ht : exec i s = .next t) : Inv t := by
  cases answers_of_exec ht with
  | faults k _ => exact inv_takeFault h k _
  | waits hi hlegal => exact inv_wait h (by rw [hmode]; decide) (hi ▸ hd) hlegal
  | completes hw hlegal _ =>
    exact inv_setPc (hw.inv h (by rw [hmode]; decide)) (by rw [hw.keeps_mode, hmode]; decide) hlegal

theorem inv_runInstruction {s t : State} (h : Inv s) (hmode : s.mode = .running) (ht : runInstruction s = .next t) :
    Inv t := by
  obtain hrun | hrun | ⟨i, hd, -, -, hrun⟩ := runInstruction_cases s <;> rw [hrun] at ht
  · cases ht; exact inv_takeFault h _ _
  · cases ht; exact inv_takeFault h _ _
  · exact inv_exec h hmode hd ht

theorem inv_execTransition {s t : State} (h : Inv s) (ht : execTransition s = .next t) : Inv t := by
  unfold execTransition at ht
  split at ht
  case h_1 hmode => exact inv_runInstruction h hmode ht
  case h_4 => cases ht
  all_goals cases ht; exact h

/-- `PC + 2` of a `PC` that can advance does not wrap. -/
theorem toNat_add_two {pc : Word} (h : pc.toNat ≤ 4092) : (pc + 2).toNat = pc.toNat + 2 :=
  (BitVec.toNat_add pc 2).trans (Nat.mod_eq_of_lt (show pc.toNat + 2 < 2 ^ 16 by omega))

/-- The completion of a key-wait moves `PC` past the FX0A that the invariants say it stands on (R173). -/
theorem inv_completeWait {s : State} (h : Inv s) (hmode : s.mode = .waitKey) (k : Key) : Inv (completeWait k s) := by
  have hroom := h.waitRoom hmode
  have heven := h.pcEven
  have hpc : (s.pc + 2).toNat = s.pc.toNat + 2 := toNat_add_two hroom
  exact { h with
    pcEven := by simp only [completeWait, hpc]; omega
    pcLow := by simp only [completeWait, hpc]; omega
    fault := ⟨fun hk => absurd (h.fault.1 hk) (by rw [hmode]; decide), nofun⟩
    waitRoom := nofun
    waitWord := nofun }

/-- The state with a key's bit set. -/
def pressed (k : Key) (s : State) : State := { s with keys := s.keys.set k.val true k.isLt }

theorem keyDown_of_down {s : State} {k : Key} (h : s.keys[k.val] = true) : keyDown k s = s := if_pos h

/-- A press outside `WAITKEY` only sets its bit (R212). -/
theorem keyDown_of_up {s : State} {k : Key} (h : s.keys[k.val] = false) (hmode : s.mode ≠ .waitKey) :
    keyDown k s = pressed k s := by
  simp only [keyDown, h, if_neg hmode, Bool.false_eq_true, if_false]
  rfl

/-- A press in `WAITKEY` completes the wait and sets its bit (R173, R212). -/
theorem keyDown_of_waiting {s : State} {k : Key} (h : s.keys[k.val] = false) (hmode : s.mode = .waitKey) :
    keyDown k s = pressed k (completeWait k s) := by
  simp only [keyDown, h, if_pos hmode, Bool.false_eq_true, if_false]
  rfl

/-- Everything a key event `KeyDown` can do. -/
theorem keyDown_cases (k : Key) (s : State) :
    keyDown k s = s ∨
      (s.mode ≠ .waitKey ∧ keyDown k s = pressed k s) ∨
      (s.mode = .waitKey ∧ keyDown k s = pressed k (completeWait k s)) := by
  cases h : s.keys[k.val] with
  | true => exact .inl (keyDown_of_down h)
  | false =>
    by_cases hmode : s.mode = .waitKey
    · exact .inr (.inr ⟨hmode, keyDown_of_waiting h hmode⟩)
    · exact .inr (.inl ⟨hmode, keyDown_of_up h hmode⟩)

theorem inv_keyDown {s : State} (h : Inv s) (k : Key) : Inv (keyDown k s) := by
  obtain hk | ⟨-, hk⟩ | ⟨hmode, hk⟩ := keyDown_cases k s <;> rw [hk]
  · exact h
  · exact inv_setKeys h _
  · exact inv_setKeys (inv_completeWait h hmode k) _

theorem inv_loadRom {s : State} (h : Inv s) (rom : List Byte) : Inv (loadRom rom s).2 := by
  unfold loadRom
  split
  · exact h
  · next hmode =>
    split
    · exact h
    · exact inv_writeBytes h (by rw [not_not.1 hmode]; decide) (by decide) (by omega)

theorem inv_start {s : State} (h : Inv s) : Inv (start s) := by
  unfold start
  split
  · next hmode =>
    exact { h with
      fault := ⟨fun hk => absurd (h.fault.1 hk) (by rw [hmode]; decide), nofun⟩
      waitRoom := nofun
      waitWord := nofun }
  · exact h

theorem inv_perform {s t : State} (h : Inv s) : ∀ tr : Transition, perform tr s = .next t → Inv t
  | .exec, ht => inv_execTransition h ht
  | .tick, ht => by cases ht; rw [tick_frame]; exact inv_setTimers h _ _
  | .keyDown k, ht => by cases ht; exact inv_keyDown h k
  | .keyUp _, ht => by cases ht; exact inv_setKeys h _
  | .reset, ht => by cases ht; exact inv_resetCore s
  | .load rom, ht => by cases ht; exact inv_loadRom h rom
  | .start, ht => by cases ht; exact inv_start h

/-- Settles O56: a step performs one agent's transition, each of which keeps the invariants. The two that lean on the
key-wait's own invariants are the issue of an FX0A, which sets them up, and the press that ends the wait. -/
theorem stepKeepsInvariants : Obligations.StepKeepsInvariants := by
  intro s t h ht
  cases hpending : s.pending with
  | nil => rw [step_unscheduled hpending] at ht; exact inv_execTransition h ht
  | cons tr rest => rw [step_scheduled hpending] at ht; exact inv_perform (inv_setPending h rest) tr ht

/-! ### The graph of `MODE` -/

theorem exec_mode {i : Instr} {s t : State} (ht : exec i s = .next t) :
    t.mode = s.mode ∨ t.mode = .waitKey ∨ t.mode = .faulted := by
  cases answers_of_exec ht with
  | faults k _ => exact .inr (.inr rfl)
  | waits _ _ => exact .inr (.inl rfl)
  | completes hw _ _ => exact .inl hw.keeps_mode

theorem runInstruction_mode {s t : State} (ht : runInstruction s = .next t) :
    t.mode = s.mode ∨ t.mode = .waitKey ∨ t.mode = .faulted := by
  obtain hrun | hrun | ⟨i, -, -, -, hrun⟩ := runInstruction_cases s <;> rw [hrun] at ht
  · cases ht; exact .inr (.inr rfl)
  · cases ht; exact .inr (.inr rfl)
  · exact exec_mode ht

theorem execTransition_mode {s t : State} (ht : execTransition s = .next t) (hne : t.mode ≠ s.mode) :
    s.mode = .running ∧ (t.mode = .waitKey ∨ t.mode = .faulted) := by
  unfold execTransition at ht
  split at ht
  case h_1 hmode => exact ⟨hmode, (runInstruction_mode ht).resolve_left hne⟩
  case h_4 => cases ht
  all_goals cases ht; exact absurd rfl hne

theorem keyDown_mode {s : State} {k : Key} (hne : (keyDown k s).mode ≠ s.mode) :
    s.mode = .waitKey ∧ (keyDown k s).mode = .running := by
  obtain hk | ⟨-, hk⟩ | ⟨hmode, hk⟩ := keyDown_cases k s <;> rw [hk] at hne ⊢
  · exact absurd rfl hne
  · exact absurd rfl hne
  · exact ⟨hmode, rfl⟩

theorem loadRom_mode (rom : List Byte) (s : State) : (loadRom rom s).2.mode = s.mode := by
  unfold loadRom
  split
  · rfl
  · split <;> rfl

theorem start_mode {s : State} (hne : (start s).mode ≠ s.mode) : s.mode = .stopped ∧ (start s).mode = .running := by
  unfold start at hne ⊢
  split at hne
  · next hmode => exact ⟨hmode, by rw [if_pos hmode]⟩
  · exact absurd rfl hne

/-- Settles O57: of the transitions that can be scheduled, only five write `MODE`, and each from one `MODE` or, for
`Reset`, from any. -/
theorem modeTransitions : Obligations.ModeTransitions := by
  intro s t ht hne
  cases hpending : s.pending with
  | nil =>
    rw [step_unscheduled hpending] at ht
    obtain ⟨hs, hmode⟩ := execTransition_mode ht hne
    exact .inr (.inr (.inl ⟨hs, hmode, .inl rfl⟩))
  | cons tr rest =>
    rw [step_scheduled hpending] at ht
    cases tr with
    | exec =>
      obtain ⟨hs, hmode⟩ := execTransition_mode ht hne
      exact .inr (.inr (.inl ⟨hs, hmode, .inr rfl⟩))
    | tick => cases ht; rw [tick_frame] at hne; exact absurd rfl hne
    | keyDown k =>
      cases ht
      obtain ⟨hs, hmode⟩ := keyDown_mode hne
      exact .inr (.inr (.inr ⟨hs, hmode, k, rfl⟩))
    | keyUp k => cases ht; exact absurd rfl hne
    | reset => cases ht; exact .inl ⟨rfl, rfl⟩
    | load rom => cases ht; exact absurd (loadRom_mode rom _) hne
    | start =>
      cases ht
      obtain ⟨hs, hmode⟩ := start_mode hne
      exact .inr (.inl ⟨hs, hmode, rfl⟩)

/-! ### The frozen machine -/

/-- Outside `WAITKEY` a press sets levels only (R212). -/
theorem keyDown_frame {s : State} (hmode : s.mode ≠ .waitKey) (k : Key) :
    keyDown k s = { s with keys := (keyDown k s).keys } := by
  obtain hk | ⟨-, hk⟩ | ⟨hwait, hk⟩ := keyDown_cases k s
  · rw [hk]
  · rw [hk]; rfl
  · exact absurd hwait hmode

/-- Outside `RUNNING` and `WAITKEY` a tick has no effect (R210). -/
theorem tick_of_stopped_or_faulted {s : State} (h : s.mode = .stopped ∨ s.mode = .faulted) : tick s = s := by
  refine if_neg ?_
  rcases h with h | h <;> rw [h] <;> decide

theorem loadRom_of_not_stopped {s : State} (h : s.mode ≠ .stopped) (rom : List Byte) : loadRom rom s = (.ignored, s) :=
  if_pos h

theorem start_of_not_stopped {s : State} (h : s.mode ≠ .stopped) : start s = s := if_neg h

theorem perform_faulted {s t : State} (hmode : s.mode = .faulted) :
    ∀ tr : Transition, tr ≠ .reset → perform tr s = .next t → t = { s with keys := t.keys }
  | .exec, _, ht => by rw [perform, execTransition_faulted hmode] at ht; cases ht
  | .tick, _, ht => by rw [perform, tick_of_stopped_or_faulted (.inr hmode)] at ht; cases ht; rfl
  | .keyDown k, _, ht => by cases ht; exact keyDown_frame (by rw [hmode]; decide) k
  | .keyUp _, _, ht => by cases ht; rfl
  | .reset, hne, _ => absurd rfl hne
  | .load rom, _, ht => by
    rw [perform, loadRom_of_not_stopped (by rw [hmode]; decide)] at ht; cases ht; rfl
  | .start, _, ht => by rw [perform, start_of_not_stopped (by rw [hmode]; decide)] at ht; cases ht; rfl

/-- Settles O58: `Exec` answers no next state, `Tick`, `Load` and `Start` are held to other modes, and a key event sets
a level. -/
theorem faultedStateIsFrozen : Obligations.FaultedStateIsFrozen := by
  intro tr rest s t hmode hpending hreset ht
  rw [step_scheduled hpending] at ht
  exact perform_faulted (s := { s with pending := rest }) hmode tr hreset ht

end Sys2Proof.Proofs
end

section
/-!
PROOFS. Calls, returns and jumps (spec/40_control_flow.md R103 to R111; 10_state.md R24): the two stack instructions
equation by equation, what nested calls add up to, and why the slots at `SP` and above cannot be observed.
-/
namespace Sys2Proof.Proofs
open Sys2Proof.Machine Sys2Proof.Laws

/-! ### The words -/

theorem decodeWord_encAddr_jp {nnn : Nat} (h : nnn < 4096) : decodeWord (encAddr 0x1000 nnn) = some (.jp nnn) :=
  (congrArg decodeWord (encAddr_eq_wordOf 1 h)).trans (WordRoundTrip.jp nnn (decide_eq_true h))

theorem decodeWord_encAddr_call {nnn : Nat} (h : nnn < 4096) : decodeWord (encAddr 0x2000 nnn) = some (.call nnn) :=
  (congrArg decodeWord (encAddr_eq_wordOf 2 h)).trans (WordRoundTrip.call nnn (decide_eq_true h))

theorem decodeWord_encAddr_jpV0 {nnn : Nat} (h : nnn < 4096) : decodeWord (encAddr 0xB000 nnn) = some (.jpV0 nnn) :=
  (congrArg decodeWord (encAddr_eq_wordOf 11 h)).trans (WordRoundTrip.jpV0 nnn (decide_eq_true h))

theorem decodeWord_encXY_seReg (x y : Reg) : decodeWord (encXY 0x5000 x y) = some (.seReg x y) :=
  (congrArg decodeWord (encXY_eq_wordXYN (c := 5) (by decide) x y)).trans (WordRoundTrip.seReg x y rfl)

theorem decodeWord_encXY_sneReg (x y : Reg) : decodeWord (encXY 0x9000 x y) = some (.sneReg x y) :=
  (congrArg decodeWord (encXY_eq_wordXYN (c := 9) (by decide) x y)).trans (WordRoundTrip.sneReg x y rfl)

/-! ### Jumps -/

/-- Settles O15: the jump's next program counter is its target, and it writes nothing else. -/
theorem jumpResult : Obligations.JumpResult := by
  intro nnn s h
  refine ⟨decodeWord_encAddr_jp h, fun heven => ?_, fun hodd => ?_⟩
  · exact exec_jp_of_legal s ⟨by omega, heven⟩
  · exact commit_bad _ s s (npc := nnn) (by omega)

/-- Settles O20: the sum is a number, so that it is compared with 4095 before it could wrap. -/
theorem indirectJumpResult : Obligations.IndirectJumpResult := by
  intro nnn s h
  refine ⟨decodeWord_encAddr_jpV0 h, fun hlegal => ?_, fun hbad => ?_⟩
  · exact commit_ok _ s s (npc := targetV0 nnn s) hlegal
  · exact commit_bad _ s s (npc := nnn + (s.reg 0).toNat) (by omega)

/-! ### Skips on registers -/

/-- 5XY0 is a skip taken when the registers are equal (R109). -/
theorem exec_seReg_eq (x y : Reg) (s : State) :
    exec (.seReg x y) s = commit (.seReg x y) s (skipIf s (decide (s.reg x = s.reg y))) := rfl

/-- 9XY0 is a skip taken when they are not (R110). -/
theorem exec_sneReg_eq (x y : Reg) (s : State) :
    exec (.sneReg x y) s = commit (.sneReg x y) s (skipIf s (!decide (s.reg x = s.reg y))) := rfl

/-- Settles O22: the two conditions are one comparison and its negation, and a skip moves `PC` only. -/
theorem skipOnRegisters : Obligations.SkipOnRegisters := by
  intro x y s hs
  rw [exec_seReg_eq, exec_sneReg_eq]
  refine ⟨decodeWord_encXY_seReg x y, decodeWord_encXY_sneReg x y, fun heq => ?_, fun hne => ?_⟩
  · rw [decide_eq_true heq]
    exact ⟨commit_skipIf_true _ hs, commit_skipIf_true_bad _, commit_skipIf_false _ hs⟩
  · rw [decide_eq_false hne]
    exact ⟨commit_skipIf_true _ hs, commit_skipIf_true_bad _, commit_skipIf_false _ hs⟩

/-! ### Calls and returns -/

theorem execCall_of_room {s : State} (h : s.sp.val < 16) (nnn : Nat) :
    exec (.call nnn) s = commit (.call nnn) s (.ok (pushed s h, nnn)) := by
  obtain ⟨-, hfull⟩ | ⟨_, hpush⟩ := push_cases s (returnAddress s)
  · omega
  · rw [exec_call, execCall, hpush]; rfl

theorem exec_call_of_full {s : State} (h : s.sp.val = 16) (nnn : Nat) :
    exec (.call nnn) s = .next (takeFault .stackOverflow (encode (.call nnn)) s) := by
  obtain ⟨hpush, -⟩ | ⟨hroom, -⟩ := push_cases s (returnAddress s)
  · rw [exec_call, execCall, hpush]; rfl
  · omega

theorem exec_ret_of_empty {s : State} (h : s.sp.val = 0) :
    exec .ret s = .next (takeFault .stackUnderflow 0x00EE s) := by
  obtain ⟨hpop, -⟩ | ⟨_, hne, -⟩ := pop_cases s
  · rw [exec_ret, execRet, hpop]; rfl
  · exact absurd h hne

theorem exec_ret_of_ne {s : State} (h : s.sp.val - 1 < 16) (hne : s.sp.val ≠ 0) :
    exec .ret s = commit .ret s (.ok (popped s h, s.stack[s.sp.val - 1].toNat)) := by
  obtain ⟨-, hempty⟩ | ⟨_, -, hpop⟩ := pop_cases s
  · exact absurd hempty hne
  · rw [exec_ret, execRet, hpop]; rfl

/-- Settles O16: with room the call commits the push and goes to its target; a full stack is found by the push, before
the target is looked at. -/
theorem callResult : Obligations.CallResult := by
  intro nnn s h
  refine ⟨decodeWord_encAddr_call h, fun hroom heven hpc => ?_, fun hfull => exec_call_of_full hfull nnn,
    fun hroom hodd => ?_⟩
  · refine ⟨_, (execCall_of_room hroom nnn).trans (commit_ok _ s _ ⟨by omega, heven⟩), toNat_addrWord h, rfl,
      fun k hk hnew => ?_, fun k hk hold => (pushed_getElem s hroom hk).trans (if_neg (Ne.symm hold)), fun _ _ => rfl,
      fun _ => rfl, rfl, ⟨rfl, rfl⟩, rfl, rfl, ⟨rfl, rfl, rfl, rfl, rfl⟩, rfl, rfl, rfl⟩
    subst hnew
    exact (congrArg BitVec.toNat ((pushed_getElem s hroom hk).trans (if_pos rfl))).trans (toNat_returnAddress hpc)
  · exact (execCall_of_room hroom nnn).trans (commit_bad _ s _ (by omega))

theorem decodeWord_ret : decodeWord 0x00EE = some .ret :=
  WordRoundTrip.ret rfl

/-- Settles O17: the popped value is the next program counter, checked before the pop is committed. -/
theorem returnResult : Obligations.ReturnResult := by
  refine fun s => ⟨decodeWord_ret, exec_ret_of_empty, fun h hne => ⟨fun hlegal => ?_, fun hbad => ?_⟩⟩
  · have hpc : BitVec.ofNat 16 s.stack[s.sp.val - 1].toNat = s.stack[s.sp.val - 1] := by
      rw [BitVec.ofNat_toNat, BitVec.setWidth_eq]
    exact ⟨_, (exec_ret_of_ne h hne).trans (commit_ok _ s _ hlegal), hpc, rfl, rfl, fun _ _ => rfl, fun _ => rfl, rfl,
      ⟨rfl, rfl⟩, rfl, rfl, ⟨rfl, rfl, rfl, rfl, rfl⟩, rfl, rfl, rfl⟩
  · exact (exec_ret_of_ne h hne).trans (commit_bad _ s _ hbad)

/-- Settles O18: the return pops the slot that the call has written, whose value is `PC + 2`. -/
theorem callThenReturnComesBack : Obligations.CallThenReturnComesBack := by
  intro nnn s h heven hroom hs
  have hreturn : ((pushed s hroom).setPc nnn).stack[s.sp.val].toNat = s.pc.toNat + 2 :=
    (congrArg BitVec.toNat ((pushed_getElem s hroom hroom).trans (if_pos rfl))).trans (toNat_returnAddress (by omega))
  refine ⟨_, _, (execCall_of_room hroom nnn).trans (commit_ok _ s _ ⟨by omega, heven⟩),
    (exec_ret_of_ne (s := (pushed s hroom).setPc nnn) hroom (Nat.succ_ne_zero _)).trans
      (commit_ok _ _ _ (npc := ((pushed s hroom).setPc nnn).stack[s.sp.val].toNat) (by omega)), ?_,
    fun k hk hlt => (pushed_getElem s hroom hk).trans (if_neg (Nat.ne_of_gt hlt))⟩
  rw [hreturn]
  rfl

/-- Calls to legal targets, as many as there is room for, all succeed and push one entry each. -/
theorem callAll_of_room : ∀ (targets : List Nat) (s : State), (∀ a ∈ targets, a < 4096 ∧ a % 2 = 0) →
    s.sp.val + targets.length ≤ 16 →
    ∃ t, callAll targets s = .next t ∧ t.sp.val = s.sp.val + targets.length ∧ t.mode = s.mode
  | [], s, _, _ => ⟨s, rfl, rfl, rfl⟩
  | nnn :: rest, s, htargets, hroom => by
    obtain ⟨hnnn, hrest⟩ := List.forall_mem_cons.1 htargets
    rw [List.length_cons] at hroom ⊢
    have hsp : s.sp.val < 16 := by omega
    obtain ⟨t, ht, hdepth, hmode⟩ := callAll_of_room rest ((pushed s hsp).setPc nnn) hrest
      (show s.sp.val + 1 + rest.length ≤ 16 by omega)
    refine ⟨t, ?_, hdepth.trans (show s.sp.val + 1 + rest.length = _ by omega), hmode⟩
    rw [callAll, execCall_of_room hsp, commit_ok _ s _ ⟨by omega, hnnn.2⟩]
    exact ht

/-- Settles O19: 16 calls fill the 16 slots, and the next push finds none. -/
theorem seventeenthCallOverflows : Obligations.SeventeenthCallOverflows := by
  intro targets s hlength htargets hempty hmode
  obtain ⟨t, ht, hdepth, htmode⟩ := callAll_of_room targets s htargets (by omega)
  have hfull : t.sp.val = 16 := by omega
  exact ⟨t, ht, hfull, htmode.trans hmode, exec_call_of_full hfull⟩

/-! ### Stale slots -/

/-- The state with another stack array. -/
def withStack (stk : Vector Word 16) (s : State) : State := { s with stack := stk }

/-- `u` is `t` but for stack slots at `SP` and above. -/
def EqualBelowSp (t u : State) : Prop :=
  u = withStack u.stack t ∧ ∀ k (h : k < 16), k < t.sp.val → u.stack[k] = t.stack[k]

section
variable {stk : Vector Word 16} {s t : State} {i : Instr}

/-- A commit carries the stack array through: neither the check of `PC` nor the fault entry looks at it. -/
theorem commit_withStack {e : Effect} (h : commit i s e = .next t) :
    commit i (withStack stk s) (e.map fun p => (withStack stk p.1, p.2)) = .next (withStack stk t) := by
  rcases e with k | ⟨w, npc⟩
  · cases h; rfl
  · by_cases hlegal : npc ≤ 4095 ∧ npc % 2 = 0
    · rw [commit_ok i s w hlegal] at h
      cases h
      exact commit_ok i _ _ hlegal
    · rw [commit_bad i s w hlegal] at h
      cases h
      exact commit_bad i _ _ hlegal

theorem commit_ok_withStack {w : State} {npc : Nat} (h : commit i s (.ok (w, npc)) = .next t) :
    commit i (withStack stk s) (.ok (withStack stk w, npc)) = .next (withStack stk t) :=
  commit_withStack h

theorem map_bind {ε α β γ : Type} (e : Except ε α) (f : α → Except ε β) (g : β → γ) :
    (e.bind f).map g = e.bind fun a => (f a).map g := by
  cases e <;> rfl

/-- The same for an instruction that first reads something else than the stack. -/
theorem commit_bind_withStack {α : Type} {e : Except FaultKind α} {f : α → Effect}
    (h : commit i s (e.bind f) = .next t) :
    commit i (withStack stk s) (e.bind fun a => (f a).map fun p => (withStack stk p.1, p.2)) =
      .next (withStack stk t) := by
  rw [← map_bind]
  exact commit_withStack h

theorem commit_memWrite_withStack {a : Nat} {bs : List Byte}
    (h : commit i s ((memWrite s a bs).bind (advance s)) = .next t) :
    commit i (withStack stk s) ((memWrite (withStack stk s) a bs).bind (advance (withStack stk s))) =
      .next (withStack stk t) := by
  have hwrite : memWrite (withStack stk s) a bs = (memWrite s a bs).map (withStack stk) := by
    unfold memWrite
    split <;> rfl
  have hbind : (memWrite (withStack stk s) a bs).bind (advance (withStack stk s)) =
      ((memWrite s a bs).bind (advance s)).map fun p => (withStack stk p.1, p.2) := by
    rw [hwrite]
    cases memWrite s a bs <;> rfl
  rw [hbind]
  exact commit_withStack h

theorem execLdVxKey_withStack {x : Reg} (h : execLdVxKey x s = .next t) :
    execLdVxKey x (withStack stk s) = .next (withStack stk t) := by
  by_cases hlegal : s.pc.toNat + 2 ≤ 4095 ∧ (s.pc.toNat + 2) % 2 = 0
  · cases (commitHeld_ok (.ldVxKey x) s { s with mode := .waitKey, waitX := x } hlegal).symm.trans h
    exact commitHeld_ok _ (withStack stk s) _ hlegal
  · cases (commitHeld_bad (.ldVxKey x) s { s with mode := .waitKey, waitX := x } hlegal).symm.trans h
    exact commitHeld_bad _ (withStack stk s) _ hlegal

theorem setRegs_withStack (bs : List Byte) : ∀ (s : State) (k : Nat),
    (withStack stk s).setRegs k bs = withStack stk (s.setRegs k bs) := by
  induction bs with
  | nil => exact fun _ _ => rfl
  | cons b bs ih =>
    intro s k
    rw [State.setRegs, State.setRegs, ← ih]
    split <;> rfl

theorem execLoadRegs_withStack {x : Reg} (h : execLoadRegs x s = .next t) :
    execLoadRegs x (withStack stk s) = .next (withStack stk t) := by
  rw [← commit_bind_withStack h, execLoadRegs]
  simp only [setRegs_withStack]
  rfl

/-- An instruction that is no call and no return carries the stack array through. -/
theorem exec_withStack (hi : ∀ nnn, i ≠ .call nnn ∧ i ≠ .ret) (h : exec i s = .next t) :
    exec i (withStack stk s) = .next (withStack stk t) := by
  cases i with
  | call nnn => exact absurd rfl (hi nnn).1
  | ret => exact absurd rfl (hi 0).2
  | drw x y n => exact commit_bind_withStack h
  | skp x => exact commit_bind_withStack h
  | sknp x => exact commit_bind_withStack h
  | loadRegs x => exact execLoadRegs_withStack h
  | ldBcd x => exact commit_memWrite_withStack h
  | storeRegs x => exact commit_memWrite_withStack h
  | ldVxKey x => exact execLdVxKey_withStack h
  | _ => exact commit_ok_withStack h

theorem equalBelowSp_withStack (h : ∀ k (hk : k < 16), k < s.sp.val → stk[k] = s.stack[k]) :
    EqualBelowSp s (withStack stk s) :=
  ⟨rfl, h⟩

/-- Two commits of the same next program counter agree when their writes do. -/
theorem commit_ok_equalBelowSp {w w' : State} (npc : Nat) (hs : EqualBelowSp s (withStack stk s))
    (hw : EqualBelowSp w w') :
    ∃ t u, commit i s (.ok (w, npc)) = .next t ∧ commit i (withStack stk s) (.ok (w', npc)) = .next u ∧
      EqualBelowSp t u := by
  obtain ⟨heq, hslots⟩ := hw
  by_cases hlegal : npc ≤ 4095 ∧ npc % 2 = 0
  · exact ⟨_, _, commit_ok i s w hlegal, commit_ok i _ w' hlegal, congrArg (State.setPc · npc) heq, hslots⟩
  · exact ⟨_, _, commit_bad i s w hlegal, commit_bad i _ w' hlegal, rfl, hs.2⟩

/-- The slot that a call writes is below the new `SP`, with one value in both states. -/
theorem exec_call_equalBelowSp (nnn : Nat) (hs : EqualBelowSp s (withStack stk s)) :
    ∃ t u, exec (.call nnn) s = .next t ∧ exec (.call nnn) (withStack stk s) = .next u ∧ EqualBelowSp t u := by
  by_cases hroom : s.sp.val < 16
  · rw [execCall_of_room hroom, execCall_of_room (s := withStack stk s) hroom]
    refine commit_ok_equalBelowSp nnn hs ⟨rfl, fun k hk (hlt : k < s.sp.val + 1) => ?_⟩
    refine (pushed_getElem (withStack stk s) hroom hk).trans (Eq.trans ?_ (pushed_getElem s hroom hk).symm)
    by_cases hnew : s.sp.val = k
    · exact (if_pos hnew).trans (if_pos hnew).symm
    · exact (if_neg hnew).trans ((hs.2 k hk (by omega)).trans (if_neg hnew).symm)
  · have hfull : s.sp.val = 16 := by have := s.sp.isLt; omega
    exact ⟨_, _, exec_call_of_full hfull nnn, exec_call_of_full (s := withStack stk s) hfull nnn, rfl, hs.2⟩

/-- The slot that a return reads is below `SP`. -/
theorem exec_ret_equalBelowSp (hs : EqualBelowSp s (withStack stk s)) :
    ∃ t u, exec .ret s = .next t ∧ exec .ret (withStack stk s) = .next u ∧ EqualBelowSp t u := by
  by_cases hempty : s.sp.val = 0
  · exact ⟨_, _, exec_ret_of_empty hempty, exec_ret_of_empty (s := withStack stk s) hempty, rfl, hs.2⟩
  · have hlast : s.sp.val - 1 < 16 := by have := s.sp.isLt; omega
    have hvalue : (withStack stk s).stack[s.sp.val - 1] = s.stack[s.sp.val - 1] := hs.2 _ hlast (by omega)
    rw [exec_ret_of_ne hlast hempty, exec_ret_of_ne (s := withStack stk s) hlast hempty]
    simp only [withStack] at hvalue ⊢
    rw [hvalue]
    exact commit_ok_equalBelowSp _ hs ⟨rfl, fun k hk (hlt : k < s.sp.val - 1) => hs.2 k hk (by omega)⟩

theorem exec_equalBelowSp (hi : ∀ nnn, i ≠ .call nnn ∧ i ≠ .ret) (hs : EqualBelowSp s (withStack stk s)) :
    ∃ t u, exec i s = .next t ∧ exec i (withStack stk s) = .next u ∧ EqualBelowSp t u := by
  obtain ⟨t, ht, -⟩ := exec_answers i s
  obtain ⟨-, hstack, -⟩ := otherStateWrittenByInstruction i s t ht
  obtain ⟨hsp, hslots⟩ := hstack hi
  refine ⟨t, _, ht, exec_withStack hi ht, equalBelowSp_withStack fun k hk hlt => ?_⟩
  rw [hsp] at hlt
  simp only [hslots]
  exact hs.2 k hk hlt

end

/-- Settles O59: a call writes the slot it makes visible, a return reads a visible one, and no other instruction looks
at the stack array. -/
theorem staleStackSlotsUnobservable : Obligations.StaleStackSlotsUnobservable := by
  intro i s stk hstk
  have hs : EqualBelowSp s (withStack stk s) := equalBelowSp_withStack hstk
  cases i with
  | call nnn => exact exec_call_equalBelowSp nnn hs
  | ret => exact exec_ret_equalBelowSp hs
  | _ => exact exec_equalBelowSp (fun _ => ⟨nofun, nofun⟩) hs

end Sys2Proof.Proofs
end

section
/-!
PROOFS. Results and flags (spec/41_alu.md R120 to R133), index arithmetic (42_index_memory.md R141, R142) and the timer
moves (44_keypad_timer.md R174 to R176): what the two orders of a value and a flag leave, and each result in numbers or
bit by bit.
-/
namespace Sys2Proof.Proofs
open Sys2Proof.Machine Sys2Proof.Laws

/-! ### A value and a flag -/

theorem onlyRegs_setReg_setReg_setPc (s : State) (x y : Reg) (a b : Byte) (npc : Nat) :
    OnlyRegs [x, y] s (((s.setReg x a).setReg y b).setPc npc) :=
  ⟨sameRegsBut_setReg_setReg s x y a b, fun _ => rfl, rfl, ⟨rfl, rfl⟩, ⟨rfl, rfl⟩, rfl, rfl,
    ⟨rfl, rfl, rfl, rfl, rfl⟩, rfl, rfl, rfl⟩

/-- The order of 8XY4, 8XY5 and 8XY7: at `x = 15` the flag remains (R120 (f)). -/
theorem commit_advance_setRegThenFlag {s : State} (ins : Instr) (x : Reg) (r f : Byte) (hs : CanAdvance s) :
    ∃ t, commit ins s (advance s (s.setRegThenFlag x r f)) = .next t ∧ (x ≠ VF → t.reg x = r) ∧ t.reg VF = f ∧
      t.pc.toNat = s.pc.toNat + 2 ∧ OnlyRegs [x, VF] s t := by
  refine ⟨_, commit_advance ins _ hs, fun hx => ?_, ?_, toNat_setPc_advance _ hs,
    onlyRegs_setReg_setReg_setPc s x VF r f _⟩
  · rw [State.setPc_reg, State.setRegThenFlag_eq, State.setReg_reg, if_neg hx, State.setReg_reg, if_pos rfl]
  · rw [State.setPc_reg, State.setRegThenFlag_eq, State.setReg_reg, if_pos rfl]

/-- The order of 8XY6 and 8XYE: at `x = 15` the value remains (R120 (f)). -/
theorem commit_advance_setFlagThenReg {s : State} (ins : Instr) (x : Reg) (r f : Byte) (hs : CanAdvance s) :
    ∃ t, commit ins s (advance s (s.setFlagThenReg x r f)) = .next t ∧ t.reg x = r ∧ (x ≠ VF → t.reg VF = f) ∧
      t.pc.toNat = s.pc.toNat + 2 ∧ OnlyRegs [x, VF] s t := by
  obtain ⟨hregs, hframe⟩ := onlyRegs_setReg_setReg_setPc s VF x f r (s.pc.toNat + 2)
  refine ⟨_, commit_advance ins _ hs, ?_, fun hx => ?_, toNat_setPc_advance _ hs, fun q hq => hregs q fun hm => hq ?_,
    hframe⟩
  · rw [State.setPc_reg, State.setFlagThenReg_eq, State.setReg_reg, if_pos rfl]
  · rw [State.setPc_reg, State.setFlagThenReg_eq, State.setReg_reg, if_neg hx.symm, State.setReg_reg, if_pos rfl]
  · exact (List.Perm.swap x VF []).mem_iff.1 hm

theorem toNat_flagByte (b : Bool) : (flagByte b).toNat = b.toNat := by cases b <;> rfl

theorem toNat_flagByte_decide (p : Prop) [Decidable p] : (flagByte (decide p)).toNat = if p then 1 else 0 := by
  rw [toNat_flagByte]
  by_cases h : p <;> simp [h]

/-! ### The results -/

/-- The difference mod 256 is what, added back, gives the minuend (R120, R128). -/
theorem toNat_subResult_add (a b : Byte) : ((subResult a b).toNat + b.toNat) % 256 = a.toNat := by
  have ha := a.isLt
  have hb := b.isLt
  rw [subResult, BitVec.toNat_ofNat]
  omega

theorem getLsbD_shrResult (a : Byte) {k : Nat} (hk : k < 8) : (shrResult a).getLsbD k = a.getLsbD (k + 1) := by
  rw [shrResult, BitVec.getLsbD_ofNat, decide_eq_true hk, Bool.true_and, BitVec.getLsbD, Nat.testBit_succ]

theorem getLsbD_shlResult (a : Byte) {k : Nat} (hk : k < 8) :
    (shlResult a).getLsbD k = (decide (k ≠ 0) && a.getLsbD (k - 1)) := by
  rw [shlResult, BitVec.getLsbD_ofNat, decide_eq_true hk, Bool.true_and]
  cases k with
  | zero => simp [Nat.testBit_zero]
  | succ k => rw [Nat.testBit_succ, Nat.mul_div_cancel _ (by decide)]; rfl

/-! ### The obligations of the arithmetic -/

/-- Settles O26: the three operations work on the bits one by one, and one register is written. -/
theorem bitwiseLogic : Obligations.BitwiseLogic := by
  intro x y s hs
  refine ⟨?_, ?_, ?_⟩
  · obtain ⟨t, ht, hreg, hpc, hframe⟩ := commit_advance_setReg (.orReg x y) x (s.reg x ||| s.reg y) hs
    exact ⟨t, ht, fun k _ => by rw [hreg, BitVec.getLsbD_or], hpc, hframe⟩
  · obtain ⟨t, ht, hreg, hpc, hframe⟩ := commit_advance_setReg (.andReg x y) x (s.reg x &&& s.reg y) hs
    exact ⟨t, ht, fun k _ => by rw [hreg, BitVec.getLsbD_and], hpc, hframe⟩
  · obtain ⟨t, ht, hreg, hpc, hframe⟩ := commit_advance_setReg (.xorReg x y) x (s.reg x ^^^ s.reg y) hs
    exact ⟨t, ht, fun k _ => by rw [hreg, BitVec.getLsbD_xor, Bool.bne_eq_xor], hpc, hframe⟩

/-- Settles O27: the value is written first and the carry of the unbounded sum second. -/
theorem addWithCarry : Obligations.AddWithCarry := by
  intro x y s hs
  obtain ⟨t, ht, hreg, hflag, hpc, hframe⟩ := commit_advance_setRegThenFlag (.addReg x y) x
    (addResult (s.reg x) (s.reg y)) (carryFlag (s.reg x) (s.reg y)) hs
  exact ⟨t, ht, fun hx => by rw [hreg hx, toNat_addResult], by rw [hflag, carryFlag, toNat_flagByte_decide], hpc,
    hframe⟩

theorem commit_advance_sub {s : State} (ins : Instr) (x : Reg) (a b : Byte) (hs : CanAdvance s) :
    ∃ t, commit ins s (advance s (s.setRegThenFlag x (subResult a b) (noBorrowFlag a b))) = .next t ∧
      (x ≠ VF → ((t.reg x).toNat + b.toNat) % 256 = a.toNat) ∧
      (t.reg VF).toNat = (if b.toNat ≤ a.toNat then 1 else 0) ∧ t.pc.toNat = s.pc.toNat + 2 ∧
      OnlyRegs [x, VF] s t := by
  obtain ⟨t, ht, hreg, hflag, hpc, hframe⟩ :=
    commit_advance_setRegThenFlag ins x (subResult a b) (noBorrowFlag a b) hs
  exact ⟨t, ht, fun hx => by rw [hreg hx, toNat_subResult_add],
    by rw [hflag, noBorrowFlag, toNat_flagByte_decide], hpc, hframe⟩

/-- Settles O28: the two rows are one subtraction with its operands the one way and the other. -/
theorem subtractBothWays : Obligations.SubtractBothWays := fun x y s hs =>
  ⟨commit_advance_sub (.subReg x y) x (s.reg x) (s.reg y) hs,
    commit_advance_sub (.subnReg x y) x (s.reg y) (s.reg x) hs⟩

/-- Settles O29: the flag is the bit shifted out of `V[x]` and is written first, the value second. -/
theorem shiftsInPlace : Obligations.ShiftsInPlace := by
  intro x y s hs
  constructor
  · obtain ⟨t, ht, hreg, hflag, hpc, hframe⟩ := commit_advance_setFlagThenReg (.shr x y) x
      (shrResult (s.reg x)) (shrFlag (s.reg x)) hs
    exact ⟨t, ht, fun k hk => by rw [hreg, getLsbD_shrResult _ hk],
      fun hx => by rw [hflag hx, shrFlag, toNat_flagByte], hpc, hframe⟩
  · obtain ⟨t, ht, hreg, hflag, hpc, hframe⟩ := commit_advance_setFlagThenReg (.shl x y) x
      (shlResult (s.reg x)) (shlFlag (s.reg x)) hs
    exact ⟨t, ht, fun k hk => by rw [hreg, getLsbD_shlResult _ hk],
      fun hx => by rw [hflag hx, shlFlag, toNat_flagByte], hpc, hframe⟩

/-! ### The random byte -/

theorem rnd_of_cons {s : State} {b : Byte} {rest : List Byte} (h : s.rndIn = b :: rest) : s.rnd = b := by
  rw [State.rnd, h]

theorem rnd_of_nil {s : State} (h : s.rndIn = []) : s.rnd = Config.randomByte s.draws := by
  rw [State.rnd, h]

theorem exec_rnd_eq {s : State} (x : Reg) (nn : Byte) (hs : CanAdvance s) :
    exec (.rnd x nn) s = .next ((s.drawn.setReg x (s.rnd &&& nn)).setPc (s.pc.toNat + 2)) :=
  commit_advance _ _ hs

/-- No bit outside the mask is set in a masked byte. -/
theorem and_and_not_self (b nn : Byte) : b &&& nn &&& ~~~nn = 0 := by
  rw [BitVec.and_assoc, BitVec.and_not_self]
  exact BitVec.and_zero

/-- Settles O30: the draw takes the head of the supplied bytes or a free value, and one register is written with its
masked bits. -/
theorem randomByteIsMasked : Obligations.RandomByteIsMasked := by
  intro x nn s hs
  have hreg : ((s.drawn.setReg x (s.rnd &&& nn)).setPc (s.pc.toNat + 2)).reg x = s.rnd &&& nn := by
    rw [State.setPc_reg, State.setReg_reg, if_pos rfl]
  refine ⟨_, exec_rnd_eq x nn hs, fun b rest hin => ⟨?_, ?_⟩, fun hin => ⟨?_, ?_⟩, ?_, rfl, rfl,
    toNat_setPc_advance _ hs, sameRegsBut_setReg s x _, fun _ => rfl, rfl, ⟨rfl, rfl⟩, ⟨rfl, rfl⟩, rfl, rfl,
    ⟨rfl, rfl, rfl, rfl, rfl⟩⟩
  · rw [hreg, rnd_of_cons hin]
  · exact congrArg List.tail hin
  · rw [hreg, rnd_of_nil hin]
  · exact congrArg List.tail hin
  · rw [hreg, and_and_not_self]

/-! ### The index register -/

/-- Writing `I` and `PC` leaves everything that is neither as it was. -/
theorem frame_setI_setPc (s : State) (w : Word) (npc : Nat) :
    SameRegsBut [] s ((s.setI w).setPc npc) ∧ SameMemory s ((s.setI w).setPc npc) ∧
      SameStack s ((s.setI w).setPc npc) ∧ SameTimers s ((s.setI w).setPc npc) ∧
      SameDisplay s ((s.setI w).setPc npc) ∧ SameKeys s ((s.setI w).setPc npc) ∧
      SameControl s ((s.setI w).setPc npc) ∧ SameInputs s ((s.setI w).setPc npc) :=
  ⟨fun _ _ => rfl, fun _ => rfl, ⟨rfl, rfl⟩, ⟨rfl, rfl⟩, rfl, rfl, ⟨rfl, rfl, rfl, rfl, rfl⟩, rfl, rfl, rfl⟩

/-- A glyph's address is not masked and does not wrap (R142). -/
theorem toNat_glyphAddress (s : State) (x : Reg) : (glyphAddress s x).toNat = 5 * (s.reg x).toNat := by
  have hx := (s.reg x).isLt
  rw [glyphAddress, BitVec.toNat_ofNat, Nat.mod_eq_of_lt (by omega)]

/-- Settles O32: both rows write `I` and `PC` only. -/
theorem indexArithmetic : Obligations.IndexArithmetic := by
  refine fun x s hs => ⟨⟨_, commit_advance _ (s.setI (indexPlus s x)) hs, ?_, toNat_setPc_advance _ hs, ?_⟩,
    ⟨_, commit_advance _ (s.setI (glyphAddress s x)) hs, ?_, toNat_setPc_advance _ hs, ?_⟩⟩
  · exact BitVec.toNat_ofNat _ _
  · exact frame_setI_setPc s _ _
  · exact toNat_glyphAddress s x
  · exact frame_setI_setPc s _ _

/-! ### The timers -/

theorem decodeWord_encX_ldVxDt (x : Reg) : decodeWord (encX 0xF007 x) = some (.ldVxDt x) :=
  (congrArg decodeWord (encX_eq_wordXSel (c := 15) (by decide) x 0x07)).trans (WordRoundTrip.ldVxDt x rfl)

theorem decodeWord_encX_ldDtVx (x : Reg) : decodeWord (encX 0xF015 x) = some (.ldDtVx x) :=
  (congrArg decodeWord (encX_eq_wordXSel (c := 15) (by decide) x 0x15)).trans (WordRoundTrip.ldDtVx x rfl)

theorem decodeWord_encX_ldStVx (x : Reg) : decodeWord (encX 0xF018 x) = some (.ldStVx x) :=
  (congrArg decodeWord (encX_eq_wordXSel (c := 15) (by decide) x 0x18)).trans (WordRoundTrip.ldStVx x rfl)

/-- Settles O47: FX07 is a register write, FX15 and FX18 write one timer each. -/
theorem timerMoves : Obligations.TimerMoves := by
  refine fun x s hs => ⟨decodeWord_encX_ldVxDt x, decodeWord_encX_ldDtVx x, decodeWord_encX_ldStVx x,
    commit_advance_setReg (.ldVxDt x) x s.dt hs, ?_, ?_⟩
  · exact ⟨_, commit_advance _ (s.setDt (s.reg x)) hs, rfl, rfl, toNat_setPc_advance _ hs, fun _ _ => rfl,
      fun _ => rfl, rfl, ⟨rfl, rfl⟩, rfl, rfl, ⟨rfl, rfl, rfl, rfl, rfl⟩, rfl, rfl, rfl⟩
  · exact ⟨_, commit_advance _ (s.setSt (s.reg x)) hs, rfl, rfl, toNat_setPc_advance _ hs, fun _ _ => rfl,
      fun _ => rfl, rfl, ⟨rfl, rfl⟩, rfl, rfl, ⟨rfl, rfl, rfl, rfl, rfl⟩, rfl, rfl, rfl⟩

end Sys2Proof.Proofs
end

section
/-!
PROOFS. Keys and timers (spec/44_keypad_timer.md R170 to R173; 60_exceptions.md R210 to R214, R219): the skips on a key,
the key-wait from issue to completion, level samples, and what ticks add up to.
-/
namespace Sys2Proof.Proofs
open Sys2Proof.Machine Sys2Proof.Laws

/-! ### Skips on a key -/

section
variable {s : State} {x : Reg}

theorem keyLevel_ok (h : (s.reg x).toNat < 16) : keyLevel s x = .ok s.keys[(s.reg x).toNat] := by
  obtain ⟨-, hbad⟩ | ⟨_, hok⟩ := keyLevel_cases s x
  · omega
  · exact hok

theorem keyLevel_error (h : 15 < (s.reg x).toNat) : keyLevel s x = .error .outOfBoundsAccess := by
  obtain ⟨hbad, -⟩ | ⟨hlt, -⟩ := keyLevel_cases s x
  · exact hbad
  · omega

/-- EX9E is a skip taken when the key is down (R170). -/
theorem exec_skp_eq (h : (s.reg x).toNat < 16) :
    exec (.skp x) s = commit (.skp x) s (skipIf s s.keys[(s.reg x).toNat]) := by
  rw [exec_skp, execSkp, keyLevel_ok h]; rfl

/-- EXA1 is a skip taken when the key is up (R171). -/
theorem exec_sknp_eq (h : (s.reg x).toNat < 16) :
    exec (.sknp x) s = commit (.sknp x) s (skipIf s (!s.keys[(s.reg x).toNat])) := by
  rw [exec_sknp, execSknp, keyLevel_ok h]; rfl

theorem exec_skp_of_gt (h : 15 < (s.reg x).toNat) :
    exec (.skp x) s = .next (takeFault .outOfBoundsAccess (encode (.skp x)) s) := by
  rw [exec_skp, execSkp, keyLevel_error h]; rfl

theorem exec_sknp_of_gt (h : 15 < (s.reg x).toNat) :
    exec (.sknp x) s = .next (takeFault .outOfBoundsAccess (encode (.sknp x)) s) := by
  rw [exec_sknp, execSknp, keyLevel_error h]; rfl

end

/-- Settles O42: the two conditions are one key level and its negation, and there is no level to read above 15. -/
theorem skipOnKey : Obligations.SkipOnKey := by
  refine fun x s hs => ⟨fun h => ?_, fun hbad => ⟨exec_skp_of_gt hbad, exec_sknp_of_gt hbad⟩⟩
  rw [exec_skp_eq h, exec_sknp_eq h]
  refine ⟨fun hdown => ?_, fun hup => ?_⟩
  · rw [hdown]
    exact ⟨commit_skipIf_true _ hs, commit_skipIf_true_bad _, commit_skipIf_false _ hs⟩
  · rw [hup]
    exact ⟨commit_skipIf_true _ hs, commit_skipIf_true_bad _, commit_skipIf_false _ hs⟩

/-! ### The key-wait -/

theorem decodeWord_encX_ldVxKey (x : Reg) : decodeWord (encX 0xF00A x) = some (.ldVxKey x) :=
  (congrArg decodeWord (encX_eq_wordXSel (c := 15) (by decide) x 0x0A)).trans (WordRoundTrip.ldVxKey x rfl)

/-- Settles O43: the issue writes `MODE` and `WAITX` and holds `PC`. -/
theorem keyWaitIssue : Obligations.KeyWaitIssue := fun x s hs =>
  ⟨decodeWord_encX_ldVxKey x, _, commitHeld_ok _ s _ (npc := s.pc.toNat + 2) ⟨by omega, by omega⟩, rfl, rfl, rfl,
    fun _ _ => rfl, fun _ => rfl, rfl, ⟨rfl, rfl⟩, ⟨rfl, rfl⟩, rfl, rfl, rfl, rfl, rfl, rfl, rfl, rfl⟩

/-- A key's level after one key's level is set. -/
theorem getElem_setKey (keys : Vector Bool 16) (k j : Key) (b : Bool) :
    (keys.set k.val b k.isLt)[j.val] = if j = k then b else keys[j.val] := by
  rw [Vector.getElem_set]
  by_cases h : j = k
  · rw [if_pos h, if_pos (h ▸ rfl)]
  · rw [if_neg h, if_neg fun e => h (Fin.ext e.symm)]

/-- A key's number is held by a register as it is. -/
theorem toNat_keyNumber (k : Key) : (BitVec.ofNat 8 k.val).toNat = k.val := by
  rw [BitVec.toNat_ofNat, Nat.mod_eq_of_lt (by omega)]

theorem completeWait_reg_waitX (k : Key) (s : State) : ((completeWait k s).reg s.waitX).toNat = k.val := by
  have hreg : (completeWait k s).reg s.waitX = BitVec.ofNat 8 k.val :=
    (State.setReg_reg s s.waitX _ s.waitX).trans (if_pos rfl)
  rw [hreg, toNat_keyNumber]

/-- Settles O44: the press is the completion of the wait and the key's bit. -/
theorem keyPressCompletesWait : Obligations.KeyPressCompletesWait := by
  intro k rest s hpending hmode hup hpc
  have hstep := (step_scheduled hpending).trans
    (congrArg Host.Outcome.next (keyDown_of_waiting (s := { s with pending := rest }) hup hmode))
  exact ⟨_, hstep, completeWait_reg_waitX k s, toNat_add_two hpc, rfl,
    (getElem_setKey _ _ _ _).trans (if_pos rfl), fun j hj => (getElem_setKey _ _ _ _).trans (if_neg hj), rfl,
    sameRegsBut_setReg s s.waitX _, fun _ => rfl, rfl, ⟨rfl, rfl⟩, ⟨rfl, rfl⟩, rfl, rfl, rfl, rfl, rfl, rfl, rfl⟩

/-- Settles O45: each of the three events is one equation of `KeyDown` or `KeyUp`. -/
theorem keyEventsOnlySetLevels : Obligations.KeyEventsOnlySetLevels := by
  refine fun k rest s => ⟨fun hpending hdown => ?_, fun hpending hup hmode => ?_, fun hpending => ?_⟩ <;>
    rw [step_scheduled hpending]
  · exact congrArg Host.Outcome.next (keyDown_of_down (s := { s with pending := rest }) hdown)
  · exact ⟨_, congrArg Host.Outcome.next (keyDown_of_up (s := { s with pending := rest }) hup hmode),
      (getElem_setKey _ _ _ _).trans (if_pos rfl), fun j hj => (getElem_setKey _ _ _ _).trans (if_neg hj), rfl⟩
  · exact ⟨_, rfl, (getElem_setKey _ _ _ _).trans (if_pos rfl),
      fun j hj => (getElem_setKey _ _ _ _).trans (if_neg hj), rfl⟩

/-! ### Level samples -/

/-- Key `k` is newly pressed in the sample. -/
def NewPress (keyIn : Vector Bool 16) (s : State) (k : Key) : Prop := keyIn[k.val] = true ∧ s.keys[k.val] = false

section
variable {keyIn : Vector Bool 16}

theorem sampleKey_of_newPress {s : State} {k : Key} (h : NewPress keyIn s k) : sampleKey keyIn s k = keyDown k s := by
  rw [sampleKey, h.1, h.2]; rfl

/-- A key that is not newly pressed, or that is sampled outside a key-wait, gets its level and does nothing else. -/
theorem sampleKey_of_noPress {s : State} {k : Key} (h : s.mode ≠ .waitKey ∨ ¬NewPress keyIn s k) :
    sampleKey keyIn s k = { s with keys := s.keys.set k.val keyIn[k.val] k.isLt } := by
  have hsame (e : keyIn[k.val] = s.keys[k.val]) : s.keys.set k.val keyIn[k.val] k.isLt = s.keys := by
    rw [e, Vector.set_getElem_self]
  cases hin : keyIn[k.val] <;> cases hkey : s.keys[k.val]
  · rw [← hin, hsame (hin.trans hkey.symm), sampleKey, hin, hkey]; rfl
  · rw [sampleKey, hin, hkey]; rfl
  · have hmode : s.mode ≠ .waitKey := h.resolve_right fun hno => hno ⟨hin, hkey⟩
    rw [sampleKey_of_newPress ⟨hin, hkey⟩, keyDown_of_up hkey hmode]; rfl
  · rw [← hin, hsame (hin.trans hkey.symm), sampleKey, hin, hkey]; rfl

/-- Whether or not it ends a wait, a sampled key gets its level. -/
theorem sampleKey_keys (s : State) (k : Key) :
    (sampleKey keyIn s k).keys = s.keys.set k.val keyIn[k.val] k.isLt := by
  by_cases h : s.mode ≠ .waitKey ∨ ¬NewPress keyIn s k
  · rw [sampleKey_of_noPress h]
  · obtain ⟨hmode, hpress⟩ := not_or.1 h
    have hpress := not_not.1 hpress
    rw [sampleKey_of_newPress hpress, keyDown_of_waiting hpress.2 (not_not.1 hmode), hpress.1]; rfl

theorem foldl_sampleKey_keys (j : Key) : ∀ (l : List Key) (s : State),
    (l.foldl (sampleKey keyIn) s).keys[j.val] = if j ∈ l then keyIn[j.val] else s.keys[j.val]
  | [], _ => rfl
  | k :: l, s => by
    rw [List.foldl_cons, foldl_sampleKey_keys j l, sampleKey_keys, getElem_setKey]
    by_cases hk : j = k
    · subst hk; simp
    · simp [hk]

/-- A run of samples outside a key-wait, or without a new press, sets levels only. -/
theorem foldl_sampleKey_frame : ∀ (l : List Key) (s : State), (s.mode ≠ .waitKey ∨ ∀ j ∈ l, ¬NewPress keyIn s j) →
    l.foldl (sampleKey keyIn) s = { s with keys := (l.foldl (sampleKey keyIn) s).keys }
  | [], _, _ => rfl
  | k :: l, s, h => by
    have hk : s.mode ≠ .waitKey ∨ ¬NewPress keyIn s k := h.imp_right fun hall => hall k List.mem_cons_self
    have hl : s.mode ≠ .waitKey ∨
        ∀ j ∈ l, ¬NewPress keyIn { s with keys := s.keys.set k.val keyIn[k.val] k.isLt } j := by
      refine h.imp_right fun hall j hj hpress => ?_
      obtain ⟨hin, hkey⟩ := hpress
      rw [getElem_setKey] at hkey
      split at hkey
      · next e => subst e; rw [hin] at hkey; cases hkey
      · exact hall j (List.mem_cons_of_mem k hj) ⟨hin, hkey⟩
    rw [List.foldl_cons, sampleKey_of_noPress hk]
    exact foldl_sampleKey_frame l { s with keys := s.keys.set k.val keyIn[k.val] k.isLt } hl

/-- The keys are sampled in ascending order, so every key before `k` is a lower one. -/
theorem finRange_split (k : Key) : ∃ before after, List.finRange 16 = before ++ k :: after ∧ ∀ j ∈ before, j < k := by
  obtain ⟨before, after, hsplit⟩ := List.append_of_mem (List.mem_finRange k)
  have hsorted := List.pairwise_lt_finRange 16
  rw [hsplit, List.pairwise_append] at hsorted
  obtain ⟨-, -, hlt⟩ := hsorted
  exact ⟨before, after, hsplit, fun j hj => hlt j hj k List.mem_cons_self⟩

/-- The lowest new press ends the wait, and the keys sampled after it set levels only. -/
theorem sampleKeys_of_lowest {s : State} {k : Key} (hmode : s.mode = .waitKey) (hk : NewPress keyIn s k)
    (hlowest : ∀ j : Key, j < k → ¬NewPress keyIn s j) :
    ((sampleKeys keyIn s).reg s.waitX).toNat = k.val ∧ (sampleKeys keyIn s).mode = .running := by
  obtain ⟨before, after, hsplit, hlt⟩ := finRange_split k
  have hframe := foldl_sampleKey_frame before s (.inr fun j hj => hlowest j (hlt j hj))
  have hkey := foldl_sampleKey_keys (keyIn := keyIn) k before s
  rw [if_neg fun hmem => lt_irrefl k (hlt k hmem)] at hkey
  rw [sampleKeys, hsplit, List.foldl_append, List.foldl_cons]
  generalize before.foldl (sampleKey keyIn) s = u at hframe hkey ⊢
  have humode : u.mode = .waitKey := by rw [hframe]; exact hmode
  have hwaitX : u.waitX = s.waitX := by rw [hframe]
  have hup : u.keys[k.val] = false := hkey.trans hk.2
  have hrunning : (pressed k (completeWait k u)).mode ≠ .waitKey := nofun
  rw [sampleKey_of_newPress ⟨hk.1, hup⟩, keyDown_of_waiting hup humode, foldl_sampleKey_frame _ _ (.inl hrunning),
    ← hwaitX]
  exact ⟨completeWait_reg_waitX k u, rfl⟩

end

/-- Settles O46: every key gets its level, in ascending order, and of the new presses the first one met ends the
wait. -/
theorem levelSampleTakesLowestKey : Obligations.LevelSampleTakesLowestKey := by
  intro keyIn s
  have hkeys : (sampleKeys keyIn s).keys = keyIn := Vector.ext fun j hj =>
    (foldl_sampleKey_keys ⟨j, hj⟩ _ s).trans (if_pos (List.mem_finRange _))
  refine ⟨hkeys, fun k hmode hin hkey hlowest => sampleKeys_of_lowest hmode ⟨hin, hkey⟩ hlowest,
    fun _ hnone => ?_⟩
  conv_rhs => rw [← hkeys]
  exact foldl_sampleKey_frame _ s (.inr fun j _ => hnone j)

/-! ### Ticks -/

theorem tick_of_running_or_waiting {s : State} (h : s.mode = .running ∨ s.mode = .waitKey) :
    tick s = { s with dt := countDown s.dt, st := countDown s.st } := if_pos h

/-- A timer's decrement is the subtraction of naturals (R210). -/
theorem toNat_countDown (b : Byte) : (countDown b).toNat = b.toNat - 1 := by
  rw [countDown]
  split
  · next h => rw [h]; rfl
  · next h =>
    have hpos : b.toNat ≠ 0 := fun e => h (BitVec.eq_of_toNat_eq e)
    exact BitVec.toNat_sub_of_le (BitVec.le_def.2 (Nat.one_le_iff_ne_zero.2 hpos))

theorem ticks_of_running_or_waiting : ∀ (n : Nat) (s : State), s.mode = .running ∨ s.mode = .waitKey →
    (ticks n s).dt.toNat = s.dt.toNat - n ∧ (ticks n s).st.toNat = s.st.toNat - n ∧
      ticks n s = { s with dt := (ticks n s).dt, st := (ticks n s).st }
  | 0, _, _ => ⟨rfl, rfl, rfl⟩
  | n + 1, s, h => by
    have htick := tick_of_running_or_waiting h
    obtain ⟨hdt, hst, hframe⟩ := ticks_of_running_or_waiting n (tick s) (by rw [htick]; exact h)
    refine ⟨?_, ?_, ?_⟩
    · rw [ticks, hdt, htick, toNat_countDown, Nat.sub_sub, Nat.add_comm]
    · rw [ticks, hst, htick, toNat_countDown, Nat.sub_sub, Nat.add_comm]
    · rw [ticks, hframe, htick]

theorem ticks_of_stopped_or_faulted {s : State} (h : s.mode = .stopped ∨ s.mode = .faulted) : ∀ n, ticks n s = s
  | 0 => rfl
  | n + 1 => by rw [ticks, tick_of_stopped_or_faulted h, ticks_of_stopped_or_faulted h n]

/-- Settles O48: by induction on the number of ticks, each of which takes 1 from a timer that is not 0. -/
theorem timersCountDownToZero : Obligations.TimersCountDownToZero :=
  ⟨fun _ _ hpending => step_scheduled hpending,
    fun n s => ⟨ticks_of_running_or_waiting n s, fun h => ticks_of_stopped_or_faulted h n⟩⟩

/-! ### A wait that nothing answers -/

/-- What a transition that is neither a press nor a reset does in a key-wait: a tick ticks, and any other sets levels
at most. -/
theorem perform_waiting {s : State} (hmode : s.mode = .waitKey) :
    ∀ tr : Transition, (∀ k, tr ≠ .keyDown k ∧ tr ≠ .reset) →
      (tr = .tick ∧ perform tr s = .next (tick s)) ∨
        (tr ≠ .tick ∧ ∃ keys, perform tr s = .next { s with keys := keys })
  | .exec, _ => .inr ⟨nofun, s.keys, execTransition_held (.inr hmode)⟩
  | .tick, _ => .inl ⟨rfl, rfl⟩
  | .keyDown k, h => absurd rfl (h k).1
  | .keyUp _, _ => .inr ⟨nofun, _, rfl⟩
  | .reset, h => absurd rfl (h 0).2
  | .load rom, _ => by
    refine .inr ⟨nofun, s.keys, ?_⟩
    rw [perform, loadRom_of_not_stopped (by rw [hmode]; decide)]
  | .start, _ => by
    refine .inr ⟨nofun, s.keys, ?_⟩
    rw [perform, start_of_not_stopped (by rw [hmode]; decide)]

/-- `t` is `s` but for the timers and `KEYS`. -/
def SameButTimersAndKeys (s t : State) : Prop := t = { s with dt := t.dt, st := t.st, keys := t.keys }

/-- What is left on both timers. -/
def timersLeft (s : State) : Nat := s.dt.toNat + s.st.toNat

theorem timersLeft_tick {s : State} (hmode : s.mode = .waitKey) : timersLeft (tick s) ≤ timersLeft s - 1 := by
  simp only [tick_of_running_or_waiting (.inr hmode), timersLeft, toNat_countDown]
  omega

theorem endlessRun_succ {sched : Nat → Transition} {s t : State} {n : Nat}
    (h : perform (sched n) (endlessRun sched s n) = .next t) : endlessRun sched s (n + 1) = t := by
  rw [endlessRun, h]

section
variable {sched : Nat → Transition} {s : State} (hmode : s.mode = .waitKey)
  (hsched : ∀ n k, sched n ≠ .keyDown k ∧ sched n ≠ .reset)
include hmode hsched

theorem endlessRun_waiting (n : Nat) :
    (endlessRun sched s n).mode = .waitKey ∧ SameButTimersAndKeys s (endlessRun sched s n) := by
  induction n with
  | zero => exact ⟨hmode, rfl⟩
  | succ n ih =>
    obtain ⟨hwait, hsame⟩ := ih
    obtain ⟨-, h⟩ | ⟨-, keys, h⟩ := perform_waiting hwait (sched n) (hsched n) <;> rw [endlessRun_succ h]
    · rw [tick_frame, hsame]; exact ⟨hmode, rfl⟩
    · rw [hsame]; exact ⟨hmode, rfl⟩

theorem timersLeft_endlessRun_antitone : Antitone fun n => timersLeft (endlessRun sched s n) := by
  refine antitone_nat_of_succ_le fun n => ?_
  obtain ⟨hwait, -⟩ := endlessRun_waiting hmode hsched n
  obtain ⟨-, h⟩ | ⟨-, keys, h⟩ := perform_waiting hwait (sched n) (hsched n) <;> rw [endlessRun_succ h]
  · exact (timersLeft_tick hwait).trans (Nat.sub_le _ _)
  · exact Nat.le_refl _

/-- With a fair schedule a tick takes something off the timers for as long as anything is left. -/
theorem exists_timersLeft_eq_zero (hfair : FairToTimers sched s) : ∀ (b n : Nat),
    timersLeft (endlessRun sched s n) ≤ b → ∃ m, timersLeft (endlessRun sched s m) = 0 := by
  have hle := timersLeft_endlessRun_antitone hmode hsched
  intro b
  induction b with
  | zero => exact fun n hn => ⟨n, Nat.le_zero.1 hn⟩
  | succ b ih =>
    intro n hn
    obtain ⟨m, hnm, htick⟩ := hfair n fun m _ => .inr (endlessRun_waiting hmode hsched m).1
    obtain ⟨hwait, -⟩ := endlessRun_waiting hmode hsched m
    have hstep : endlessRun sched s (m + 1) = tick (endlessRun sched s m) :=
      endlessRun_succ (by rw [htick]; rfl)
    refine ih (m + 1) ?_
    calc timersLeft (endlessRun sched s (m + 1))
        ≤ timersLeft (endlessRun sched s m) - 1 := hstep ▸ timersLeft_tick hwait
      _ ≤ b := Nat.sub_le_of_le_add ((hle hnm).trans hn)

end

theorem timers_eq_zero {s : State} (h : timersLeft s = 0) : s.dt = 0 ∧ s.st = 0 := by
  obtain ⟨hdt, hst⟩ := Nat.add_eq_zero_iff.1 h
  exact ⟨BitVec.eq_of_toNat_eq hdt, BitVec.eq_of_toNat_eq hst⟩

/-- Settles O49: no scheduled transition ends the wait, the timers never rise, and each fair tick lowers what is left
on them. -/
theorem unansweredWaitOnlyRunsTimersOut : Obligations.UnansweredWaitOnlyRunsTimersOut := by
  intro sched s hmode hsched hfair
  have hle := timersLeft_endlessRun_antitone hmode hsched
  obtain ⟨n, hn⟩ := exists_timersLeft_eq_zero hmode hsched hfair _ 0 (Nat.le_refl _)
  exact ⟨endlessRun_waiting hmode hsched, n, fun m hnm => timers_eq_zero (Nat.le_zero.1 (hn ▸ hle hnm))⟩

end Sys2Proof.Proofs
end

section
/-!
PROOFS. Memory (spec/20_memory.md R50 to R63; 42_index_memory.md R143 to R146): the canonical form holds one list for
each content, what a store leaves to be read, and the stores of FX33 and FX55.
-/
namespace Sys2Proof.Proofs
open Sys2Proof.Machine Sys2Proof.Laws

/-! ### The canonical form -/

/-- A listed address reads as its entry, which is not the reset content; below it nothing is listed. -/
theorem read_cons_head {lo a : Nat} {w : Byte} {m : Memory} (h : Memory.wfFrom lo ((a, w) :: m) = true) :
    Memory.read ((a, w) :: m) a = w ∧ w ≠ Memory.background a ∧ Memory.wfFrom (a + 1) m = true ∧
      ∀ c, c < a → Memory.read ((a, w) :: m) c = Memory.background c := by
  simp only [Memory.wfFrom, Bool.and_eq_true, decide_eq_true_eq] at h
  obtain ⟨⟨⟨-, -⟩, hw⟩, hm⟩ := h
  refine ⟨if_pos rfl, hw, hm, fun c hc => ?_⟩
  rw [Memory.read, if_neg (Nat.ne_of_lt hc), Memory.read_below hm (by omega)]

theorem eq_of_read_eq : ∀ (m n : Memory) {lo lo' : Nat}, Memory.wfFrom lo m = true → Memory.wfFrom lo' n = true →
    (∀ a, m.read a = n.read a) → m = n
  | [], [], _, _, _, _, _ => rfl
  | [], (b, u) :: n, _, _, _, hn, heq => by
    obtain ⟨hread, hne, -, -⟩ := read_cons_head hn
    exact absurd (hread.symm.trans (heq b).symm) hne
  | (a, w) :: m, [], _, _, hm, _, heq => by
    obtain ⟨hread, hne, -, -⟩ := read_cons_head hm
    exact absurd (hread.symm.trans (heq a)) hne
  | (a, w) :: m, (b, u) :: n, _, _, hm, hn, heq => by
    obtain ⟨hreadA, hneA, hrestA, hbelowA⟩ := read_cons_head hm
    obtain ⟨hreadB, hneB, hrestB, hbelowB⟩ := read_cons_head hn
    rcases Nat.lt_trichotomy a b with hlt | heqAB | hgt
    · exact absurd (hreadA.symm.trans ((heq a).trans (hbelowB a hlt))) hneA
    · subst heqAB
      have hwu : w = u := hreadA.symm.trans ((heq a).trans hreadB)
      have hrest : ∀ c, Memory.read m c = Memory.read n c := fun c => by
        by_cases hc : c = a
        · rw [hc, Memory.read_below hrestA (Nat.lt_succ_self a), Memory.read_below hrestB (Nat.lt_succ_self a)]
        · exact (if_neg hc).symm.trans ((heq c).trans (if_neg hc))
      rw [hwu, eq_of_read_eq m n hrestA hrestB hrest]
    · exact absurd (hreadB.symm.trans ((heq b).symm.trans (hbelowA b hgt))) hneB

/-- Settles O38: the lowest address at which two canonical lists differ would read as the reset content in one of
them. -/
theorem equalReadsEqualMemory : Obligations.EqualReadsEqualMemory := fun m n hm hn heq => eq_of_read_eq m n hm hn heq

/-! ### What a store leaves to be read -/

theorem readByte_writeBytes {s : State} {a : Nat} {bs : List Byte} (hwf : s.mem.wf = true)
    (hfits : a + bs.length ≤ 4096) {k : Nat} (hk : k < bs.length) :
    State.readByte { s with mem := s.mem.writeBytes a bs } (a + k) = bs[k] := by
  rw [State.readByte, Memory.read_writeBytes bs _ hwf hfits, if_pos (Nat.le_add_right a k), Nat.add_sub_cancel_left,
    List.getElem?_eq_getElem hk, Option.getD_some]

theorem memWrite_ok {s : State} {a : Nat} {bs : List Byte} (hfont : 80 ≤ a) (hfits : a + bs.length ≤ 4096) :
    memWrite s a bs = .ok { s with mem := s.mem.writeBytes a bs } :=
  ((memWrite_cases s a bs).resolve_left fun ⟨_, hbad⟩ => by omega).1

theorem memWrite_error {s : State} {a : Nat} {bs : List Byte} (h : a < 80 ∨ 4096 < a + bs.length) :
    memWrite s a bs = .error .outOfBoundsAccess :=
  ((memWrite_cases s a bs).resolve_right fun ⟨_, hgood⟩ => by omega).1

/-- A store that fits goes on to `PC + 2`. -/
theorem commit_memWrite_ok {s : State} {ins : Instr} {bs : List Byte} (hs : CanAdvance s) (hfont : 80 ≤ dataAddress s)
    (hfits : dataAddress s + bs.length ≤ 4096) :
    commit ins s ((memWrite s (dataAddress s) bs).bind (advance s)) =
      .next (State.setPc { s with mem := s.mem.writeBytes (dataAddress s) bs } (s.pc.toNat + 2)) := by
  rw [memWrite_ok hfont hfits]
  exact commit_advance ins _ hs

/-- A store that does not fit stores nothing. -/
theorem commit_memWrite_error {s : State} {ins : Instr} {bs : List Byte}
    (h : dataAddress s < 80 ∨ 4096 < dataAddress s + bs.length) :
    commit ins s ((memWrite s (dataAddress s) bs).bind (advance s)) =
      .next (takeFault .outOfBoundsAccess (encode ins) s) := by
  rw [memWrite_error h]
  exact commit_error ins s _

/-- Writing memory and `PC` leaves everything that is neither as it was. -/
theorem frame_setMem_setPc (s : State) (m : Memory) (npc : Nat) :
    let t := ({ s with mem := m } : State).setPc npc
    SameRegsBut [] s t ∧ SameIndex s t ∧ SameStack s t ∧ SameTimers s t ∧ SameDisplay s t ∧ SameKeys s t ∧
      SameControl s t ∧ SameInputs s t :=
  ⟨fun _ _ => rfl, rfl, ⟨rfl, rfl⟩, ⟨rfl, rfl⟩, rfl, rfl, ⟨rfl, rfl, rfl, rfl, rfl⟩, rfl, rfl, rfl⟩

/-! ### FX33 -/

/-- The three stored digits in numbers (R143). -/
theorem readByte_bcdDigits {s : State} {a : Nat} (b : Byte) (hwf : s.mem.wf = true) (hfits : a + 3 ≤ 4096) :
    let t : State := { s with mem := s.mem.writeBytes a (bcdDigits b) }
    (t.readByte a).toNat = b.toNat / 100 ∧ (t.readByte (a + 1)).toNat = b.toNat / 10 % 10 ∧
      (t.readByte (a + 2)).toNat = b.toNat % 10 := by
  have hb := b.isLt
  have hread (k : Nat) (hk : k < 3) := congrArg BitVec.toNat (readByte_writeBytes (bs := bcdDigits b) hwf hfits hk)
  have hdigit {d : Nat} (hd : d ≤ 9) : (BitVec.ofNat 8 d).toNat = d := by
    rw [BitVec.toNat_ofNat, Nat.mod_eq_of_lt (by omega)]
  exact ⟨(hread 0 (by decide)).trans (hdigit (by omega)), (hread 1 (by decide)).trans (hdigit (by omega)),
    (hread 2 (by decide)).trans (hdigit (by omega))⟩

/-- Settles O33: a byte is its three digits, and the store is checked as a whole. -/
theorem bcdStore : Obligations.BcdStore := by
  intro x s hwf hs
  have hlength : (bcdDigits (s.reg x)).length = 3 := rfl
  refine ⟨fun ⟨hfont, hle⟩ => ?_, fun hbad => commit_memWrite_error (by rw [hlength, dataAddress]; omega)⟩
  have hfits : dataAddress s + (bcdDigits (s.reg x)).length ≤ 4096 := by rw [hlength, dataAddress]; omega
  obtain ⟨h0, h1, h2⟩ := readByte_bcdDigits (s.reg x) hwf hfits
  refine ⟨_, commit_memWrite_ok hs hfont hfits, ?_, ?_, ?_, rfl, sameMemoryOutside_writeBytes hwf hfits,
    toNat_setPc_advance _ hs, frame_setMem_setPc s _ _⟩
  · rw [State.setPc_readByte, State.setPc_readByte, State.setPc_readByte, h0, h1, h2]
    omega
  · rw [State.setPc_readByte, h1]
    omega
  · rw [State.setPc_readByte, h2]
    omega

/-! ### FX55 -/

theorem getElem_regsUpTo (s : State) {x r : Reg} (h : r.val < (regsUpTo s x).length) :
    (regsUpTo s x)[r.val] = s.reg r := by
  simp only [regsUpTo, List.getElem_take, Vector.getElem_toList]
  rfl

section
variable {s : State} {x : Reg}

/-- FX55 within memory (R144): one store of the registers' bytes. -/
theorem exec_storeRegs_of_fits (hs : CanAdvance s) (hfont : 80 ≤ s.i.toNat) (hle : s.i.toNat + x.val ≤ 4095) :
    exec (.storeRegs x) s = .next
      (State.setPc { s with mem := s.mem.writeBytes (dataAddress s) (regsUpTo s x) } (s.pc.toNat + 2)) :=
  commit_memWrite_ok hs hfont (by rw [length_regsUpTo, dataAddress]; omega)

/-- The stored bytes are the registers. -/
theorem readByte_storeRegs (hwf : s.mem.wf = true) (hle : s.i.toNat + x.val ≤ 4095) {r : Reg} (hr : r ≤ x) :
    State.readByte { s with mem := s.mem.writeBytes (dataAddress s) (regsUpTo s x) } (dataAddress s + r.val) =
      s.reg r := by
  have hlength := length_regsUpTo s x
  have hlt : r.val < (regsUpTo s x).length := hlength ▸ Nat.lt_succ_of_le hr
  rw [readByte_writeBytes hwf (by rw [hlength, dataAddress]; omega) hlt, getElem_regsUpTo]

end

/-- Settles O34: one store of `x + 1` bytes, the `r`-th of them `V[r]`, checked as a whole. -/
theorem storeRegisters : Obligations.StoreRegisters := by
  intro x s hwf hs
  have hlength := length_regsUpTo s x
  refine ⟨fun ⟨hfont, hle⟩ => ?_, fun hbad => commit_memWrite_error (by rw [hlength, dataAddress]; omega)⟩
  have houtside := sameMemoryOutside_writeBytes (s := s) (a := dataAddress s) (bs := regsUpTo s x) hwf
    (by rw [hlength, dataAddress]; omega)
  rw [hlength] at houtside
  exact ⟨_, exec_storeRegs_of_fits hs hfont hle, fun r hr => readByte_storeRegs hwf hle hr, rfl, houtside,
    toNat_setPc_advance _ hs, frame_setMem_setPc s _ _⟩

/-- Settles O36: the load reads the addresses that the store wrote, `I` being unchanged. -/
theorem storeThenLoadRestores : Obligations.StoreThenLoadRestores := by
  intro x s w pc hwf hs hfont hle heven hlow
  refine ⟨_, _, exec_storeRegs_of_fits hs hfont hle, exec_loadRegs_of_le ⟨heven, hlow⟩ hle, fun r hr => ?_⟩
  rw [State.setPc_reg, setRegs_zero_map_range_reg, if_pos (Nat.lt_succ_of_le hr)]
  exact readByte_storeRegs hwf hle hr

/-- Settles O37: the two bytes that the next fetch reads are the first two that the store wrote. -/
theorem storeOverNextInstructionRuns : Obligations.StoreOverNextInstructionRuns := by
  intro x s i hwf hs hmode hpending hx hfont hnext hle hd
  have hpc := toNat_setPc_advance { s with mem := s.mem.writeBytes (dataAddress s) (regsUpTo s x) } hs
  refine ⟨_, exec_storeRegs_of_fits hs hfont hle, hpc, step_exec hmode hpending ?_ ?_⟩
  · exact ⟨by rw [hpc]; omega, by rw [hpc]; omega⟩
  · have h0 := readByte_storeRegs hwf hle (Fin.zero_le x)
    have h1 := readByte_storeRegs hwf hle (show (1 : Reg) ≤ x from hx)
    rw [hpc, ← hnext, wordAt, wordOfBytes, State.setPc_readByte, State.setPc_readByte]
    exact (congrArg₂ (fun a b : Byte => decodeWord (a ++ b)) h0 h1).trans hd

end Sys2Proof.Proofs
end

section
/-!
PROOFS. Sprites (spec/43_display.md R160, R162): the model's draw in terms of the sprite's bit on each cell, and what a
second draw of the same sprite does.
-/
namespace Sys2Proof.Proofs
open Sys2Proof.Machine Sys2Proof.Laws

/-! ### One draw -/

/-- The `n` bytes of the sprite at `I`. -/
def spriteBytes (s : State) (n : Nat) : List Byte := (List.range n).map fun k => s.readByte (dataAddress s + k)

/-- The state with the sprite drawn and `VF` written, before `PC` moves (R162). -/
def spriteDrawn (s : State) (x y : Reg) (n : Nat) : State :=
  State.setReg { s with disp := (drawSprite s x y (spriteBytes s n)).1 } VF
    (flagByte (drawSprite s x y (spriteBytes s n)).2)

section
variable {s : State} {x y : Reg} {n : Nat}

/-- A sprite of no bytes is read anywhere (R162 (e)). -/
theorem memRead_sprite (h : n = 0 ∨ s.i.toNat + n - 1 ≤ 4095) :
    memRead s (dataAddress s) n = .ok (spriteBytes s n) :=
  ((memRead_cases s (dataAddress s) n).resolve_left fun ⟨_, hn, (hpast : 4095 < s.i.toNat + n - 1)⟩ => by omega).1

theorem exec_drw_of_fits (hs : CanAdvance s) (h : n = 0 ∨ s.i.toNat + n - 1 ≤ 4095) :
    exec (.drw x y n) s = .next ((spriteDrawn s x y n).setPc (s.pc.toNat + 2)) := by
  rw [exec_drw, execDrw, memRead_sprite h]
  exact commit_advance _ _ hs

theorem exec_drw_of_past (h : n ≠ 0 ∧ 4095 < s.i.toNat + n - 1) :
    exec (.drw x y n) s = .next (takeFault .outOfBoundsAccess (encode (.drw x y n)) s) := by
  rw [exec_drw, execDrw, dataAddress, memRead_error (by omega) (by omega)]
  exact commit_error _ s _

/-- The loops' bit on a cell is the bit as the spec says it. -/
theorem spriteBit_spriteBytes (x0 y0 row col : Nat) :
    spriteBit (spriteBytes s n) y0 x0 row col = spritePixel s x0 y0 n row col := by
  rw [spriteBit, spritePixel, spriteBytes, List.getElem?_map]
  by_cases hlow : y0 ≤ row
  · by_cases hhigh : row < y0 + n
    · rw [List.getElem?_range (by omega)]
      simp [hlow, hhigh, rowBit, Bool.and_assoc]
    · rw [List.getElem?_eq_none (by rw [List.length_range]; omega)]
      simp [hhigh]
  · simp [hlow]

/-- The sprite's bit on a cell, from the origin that the registers give. -/
def pixel (s : State) (x y : Reg) (n row col : Nat) : Bool :=
  spritePixel s ((s.reg x).toNat % 64) ((s.reg y).toNat % 32) n row col

theorem spriteDrawn_lit {row col : Nat} (h : row < 32 ∧ col < 64) :
    Screen.lit (spriteDrawn s x y n).disp row col = (Screen.lit s.disp row col != pixel s x y n row col) := by
  rw [pixel, ← spriteBit_spriteBytes, Bool.bne_eq_xor]
  exact drawRows_lit (spriteX s x) h (spriteBytes s n) (spriteY s y) (s.disp, false)

theorem flagByte_eq_one_iff (b : Bool) : flagByte b = 1 ↔ b = true := by cases b <;> decide

theorem spriteDrawn_reg_VF : (spriteDrawn s x y n).reg VF = flagByte (drawSprite s x y (spriteBytes s n)).2 :=
  (State.setReg_reg _ VF _ VF).trans (if_pos rfl)

theorem spriteDrawn_collision :
    (spriteDrawn s x y n).reg VF = 1 ↔
      ∃ row col, row < 32 ∧ col < 64 ∧ pixel s x y n row col = true ∧ Screen.lit s.disp row col = true := by
  rw [spriteDrawn_reg_VF, flagByte_eq_one_iff]
  simp only [pixel, ← spriteBit_spriteBytes]
  exact (drawRows_hit (spriteX s x) (spriteBytes s n) (spriteY s y) (s.disp, false)).trans
    ⟨fun h => h.resolve_left nofun, .inr⟩

theorem spriteDrawn_flag : (spriteDrawn s x y n).reg VF = 0 ∨ (spriteDrawn s x y n).reg VF = 1 := by
  rw [spriteDrawn_reg_VF]
  cases (drawSprite s x y (spriteBytes s n)).2
  · exact .inl rfl
  · exact .inr rfl

theorem spriteDrawn_reg {r : Reg} (hr : r ≠ VF) : (spriteDrawn s x y n).reg r = s.reg r :=
  (State.setReg_reg _ VF _ r).trans (if_neg hr)

end

/-- Settles O40: the loops are said cell by cell in the laws of the display, and their bit on a cell is the spec's. -/
theorem spriteDrawnCellByCell : Obligations.SpriteDrawnCellByCell := by
  intro x y n s hs
  refine ⟨exec_drw_of_past, fun h => ?_⟩
  exact ⟨_, exec_drw_of_fits hs h, fun row col hrow hcol => spriteDrawn_lit ⟨hrow, hcol⟩, spriteDrawn_flag,
    spriteDrawn_collision, toNat_setPc_advance _ hs, sameRegsBut_setReg _ VF _, fun _ => rfl, rfl, ⟨rfl, rfl⟩,
    ⟨rfl, rfl⟩, rfl, ⟨rfl, rfl, rfl, rfl, rfl⟩, rfl, rfl, rfl⟩

/-! ### Two draws -/

/-- A display is its cells. -/
theorem screen_ext {d e : Screen}
    (h : ∀ row col, row < 32 ∧ col < 64 → Screen.lit d row col = Screen.lit e row col) : d = e := by
  refine Vector.ext fun row hrow => Vector.ext fun col hcol => ?_
  have hcell := h row col ⟨hrow, hcol⟩
  rwa [Screen.lit, Screen.lit, dif_pos ⟨hrow, hcol⟩, dif_pos ⟨hrow, hcol⟩] at hcell

section
variable {s : State} {x y : Reg} (n npc : Nat) (hx : x ≠ VF) (hy : y ≠ VF)
include hx hy

/-- The first draw leaves the sprite and its origin as they were. -/
theorem pixel_spriteDrawn (row col : Nat) :
    pixel ((spriteDrawn s x y n).setPc npc) x y n row col = pixel s x y n row col := by
  rw [pixel, State.setPc_reg, State.setPc_reg, spriteDrawn_reg hx, spriteDrawn_reg hy]
  rfl

theorem spriteDrawn_twice_disp :
    (spriteDrawn ((spriteDrawn s x y n).setPc npc) x y n).disp = s.disp := by
  refine screen_ext fun row col h => ?_
  rw [spriteDrawn_lit h, pixel_spriteDrawn n npc hx hy, State.setPc_disp, spriteDrawn_lit h]
  cases Screen.lit s.disp row col <;> cases pixel s x y n row col <;> rfl

/-- A lit cell under a set bit of the second draw is a cell that the first draw has lit. -/
theorem spriteDrawn_twice_collision :
    (spriteDrawn ((spriteDrawn s x y n).setPc npc) x y n).reg VF = 1 ↔
      ∃ row col, row < 32 ∧ col < 64 ∧ Screen.lit (spriteDrawn s x y n).disp row col = true ∧
        Screen.lit s.disp row col = false := by
  rw [spriteDrawn_collision]
  refine exists_congr fun row => exists_congr fun col => and_congr_right fun hrow => and_congr_right fun hcol => ?_
  rw [pixel_spriteDrawn n npc hx hy, State.setPc_disp, spriteDrawn_lit ⟨hrow, hcol⟩]
  cases Screen.lit s.disp row col <;> cases pixel s x y n row col <;> decide

end

/-- Settles O41: XOR with the same bits twice is nothing. -/
theorem drawingTwiceErases : Obligations.DrawingTwiceErases := by
  intro x y n s heven hlow hfits hx hy
  have hs : CanAdvance s := ⟨heven, by omega⟩
  have hpc := toNat_setPc_advance (spriteDrawn s x y n) hs
  have ht : CanAdvance ((spriteDrawn s x y n).setPc (s.pc.toNat + 2)) := ⟨by rw [hpc]; omega, by rw [hpc]; omega⟩
  exact ⟨_, _, exec_drw_of_fits hs hfits, exec_drw_of_fits ht hfits, spriteDrawn_twice_disp n _ hx hy,
    spriteDrawn_twice_collision n _ hx hy⟩

end Sys2Proof.Proofs
end

section
/-!
PROOFS. The host's side (spec/60_exceptions.md R215 to R224; 70_reset_and_hazards.md R240 to R243): the outputs, the
three commands, and the boot they add up to.
-/
namespace Sys2Proof.Proofs
open Sys2Proof.Machine Sys2Proof.Laws

/-! ### The outputs -/

/-- Settles O50: each output is a field or the code of one. -/
theorem outputsTheHostReads : Obligations.OutputsTheHostReads := by
  intro s
  have hsound : (observe s).soundOn = true ↔ s.st.toNat ≠ 0 := by
    rw [observe, bne_iff_ne, ne_eq, BitVec.toNat_eq]
    rfl
  have hmode {m : Mode} (h : s.mode = m) : (observe s).mode = m.code := congrArg Mode.code h
  have hkind {k : Option FaultKind} (h : s.fkind = k) : (observe s).fkind = fkindCode k := congrArg fkindCode h
  exact ⟨rfl, rfl, hsound, rfl, rfl, hmode, hmode, hmode, hmode, hkind, hkind, hkind, hkind, hkind⟩

/-! ### Reset -/

theorem reset_reg (r : Reg) : State.reset.reg r = 0 := Vector.getElem_replicate r.isLt

theorem reset_key (k : Key) : State.reset.keys[k.val] = false := Vector.getElem_replicate k.isLt

theorem reset_slot {k : Nat} (h : k < 16) : State.reset.stack[k] = 0 := Vector.getElem_replicate h

/-- Settles O51: the core's state after `Reset` is the reset state's, and the inputs are the step's own. -/
theorem resetRestoresEverything : Obligations.ResetRestoresEverything := fun _ _ hpending =>
  ⟨_, step_scheduled hpending, reset_reg, rfl, rfl, rfl, fun _ hk => reset_slot hk, rfl, rfl,
    fun row col _ _ => Screen.blank_lit row col, reset_key, fun _ ha => if_pos ha,
    fun _ ha _ => if_neg (Nat.not_lt_of_le ha), rfl, rfl, rfl, rfl, rfl, rfl, rfl, rfl⟩

/-! ### Load and start -/

theorem loadRom_too_large {s : State} {rom : List Byte} (hmode : s.mode = .stopped) (h : 3584 < rom.length) :
    loadRom rom s = (.romTooLarge, s) := by
  rw [loadRom, if_neg (not_not.2 hmode), if_pos (by omega)]

theorem loadRom_ok {s : State} {rom : List Byte} (hmode : s.mode = .stopped) (h : rom.length ≤ 3584) :
    loadRom rom s = (.ok, { s with mem := s.mem.writeBytes 0x200 rom }) := by
  rw [loadRom, if_neg (not_not.2 hmode), if_neg (by omega)]

theorem start_of_stopped {s : State} (h : s.mode = .stopped) : start s = { s with mode := .running } := if_pos h

/-- Settles O52: `Load` looks at `MODE`, then at the length, and then stores the image. -/
theorem loadCopiesImage : Obligations.LoadCopiesImage := by
  intro rom rest s hwf hpending
  refine ⟨step_scheduled hpending, fun hmode => loadRom_of_not_stopped hmode rom, loadRom_too_large,
    fun hmode hle => ⟨_, loadRom_ok hmode hle, fun k hk => ?_, ?_, rfl⟩⟩
  · exact readByte_writeBytes hwf (by omega) hk
  · exact sameMemoryOutside_writeBytes hwf (by omega)

section
variable {s : State} {rest : List Transition}

theorem step_reset (h : s.pending = .reset :: rest) : step s = .next (resetCore { s with pending := rest }) :=
  step_scheduled h

theorem step_load_ok {rom : List Byte} (h : s.pending = .load rom :: rest) (hmode : s.mode = .stopped)
    (hle : rom.length ≤ 3584) : step s = .next { s with mem := s.mem.writeBytes 0x200 rom, pending := rest } := by
  have hload := loadRom_ok (s := { s with pending := rest }) hmode hle
  rw [step_scheduled h, perform, hload]

theorem step_start_of_stopped (h : s.pending = .start :: rest) (hmode : s.mode = .stopped) :
    step s = .next { s with mode := .running, pending := rest } :=
  (step_scheduled h).trans (congrArg Host.Outcome.next (start_of_stopped (s := { s with pending := rest }) hmode))

theorem step_start_of_not_stopped (h : s.pending = .start :: rest) (hmode : s.mode ≠ .stopped) :
    step s = .next { s with pending := rest } :=
  (step_scheduled h).trans (congrArg Host.Outcome.next (start_of_not_stopped (s := { s with pending := rest }) hmode))

end

/-- Settles O53: `Start` looks at `MODE`, which the schedule does not touch. -/
theorem startOnlyFromStopped : Obligations.StartOnlyFromStopped := fun _ _ hpending =>
  ⟨step_start_of_stopped hpending, step_start_of_not_stopped hpending⟩

/-! ### Boot -/

theorem core_run_succ {s t : State} (h : step s = .next t) (k : Nat) :
    Host.Core.run core (k + 1) s = Host.Core.run core k t := by
  have hcore : core.step s = .next t := h
  simp only [Host.Core.run, hcore]

/-- The machine after `Reset`, `Load` of `rom` and `Start`, with nothing more scheduled. -/
def booted (rom : List Byte) (s : State) : State :=
  { State.reset with
    mem := Memory.writeBytes [] 0x200 rom, mode := .running, pending := [], rndIn := s.rndIn, draws := s.draws }

theorem run_boot {rom : List Byte} {s : State} (hpending : s.pending = [.reset, .load rom, .start])
    (hle : rom.length ≤ 3584) : Host.Core.run core 3 s = .next (booted rom s) := by
  rw [core_run_succ (step_reset hpending), core_run_succ (step_load_ok rfl rfl hle),
    core_run_succ (step_start_of_stopped rfl rfl)]
  rfl

theorem canFetch_booted (rom : List Byte) (s : State) : CanFetch (booted rom s) :=
  show (0x200 : Word).toNat % 2 = 0 ∧ (0x200 : Word).toNat ≤ 4094 by decide

theorem booted_readByte {rom : List Byte} (s : State) (hle : rom.length ≤ 3584) {k : Nat} (hk : k < rom.length) :
    (booted rom s).readByte (0x200 + k) = rom[k] :=
  readByte_writeBytes (s := { booted rom s with mem := [] }) rfl (by omega) hk

/-- A byte list that starts with an instruction starts with the two bytes of its word. -/
theorem decodeBytes_ok {bs rest : List Byte} {i : Instr} (h : decodeBytes bs = .ok (i, rest)) :
    ∃ hi lo, bs = hi :: lo :: rest ∧ decodeWord (wordOfBytes hi lo) = some i := by
  match bs with
  | [] => cases h
  | [_] => cases h
  | hi :: lo :: tail =>
    rw [decodeBytes] at h
    split at h
    · next hd => cases h; exact ⟨hi, lo, rfl, hd⟩
    · cases h

theorem step_booted {rom rest : List Byte} {i : Instr} (s : State) (hle : rom.length ≤ 3584)
    (h : decodeBytes rom = .ok (i, rest)) : step (booted rom s) = exec i (booted rom s) := by
  obtain ⟨hi, lo, rfl, hd⟩ := decodeBytes_ok h
  have hword : wordAt (booted (hi :: lo :: rest) s) 0x200 = wordOfBytes hi lo :=
    congrArg₂ wordOfBytes (booted_readByte s hle (k := 0) (by simp)) (booted_readByte s hle (k := 1) (by simp))
  exact step_exec rfl rfl (canFetch_booted _ s) ((congrArg decodeWord hword).trans hd)

/-- With no image the reset content is fetched, and the word 0 is illegal (R76, R243). -/
theorem step_booted_empty (s : State) :
    step (booted [] s) = .next (faultedWith .invalidOpcode 0 (booted [] s)) := by
  have hbyte (a : Nat) (ha : ¬a < 80) : (booted [] s).readByte a = 0 := if_neg ha
  have hword : wordAt (booted [] s) 0x200 = 0 :=
    (congrArg₂ wordOfBytes (hbyte 0x200 (by decide)) (hbyte 0x201 (by decide))).trans (by decide)
  have hillegal : decodeWord (wordAt (booted [] s) 0x200) = none := hword ▸ (by decide)
  exact (step_unscheduled rfl).trans ((runInstruction_of_illegal (canFetch_booted [] s) hillegal).trans
    (congrArg (fun op => Host.Outcome.next (takeFault .invalidOpcode op (booted [] s))) hword))

/-- Settles O54: the three commands make the booted state, whose `PC` stands on the image. -/
theorem bootReachesFirstInstruction : Obligations.BootReachesFirstInstruction := fun _ s hpending hle =>
  ⟨_, run_boot hpending hle, rfl, rfl, rfl, fun _ hk => booted_readByte s hle hk,
    fun _ _ hd => step_booted s hle hd, fun hempty => hempty ▸ step_booted_empty s⟩

end Sys2Proof.Proofs
end
